-- ==== Sys2Proof/Word.lean ====
section
/-! DEFINITION. The word types of XNCODEC (00_scope.md R6, R9): every wire unit and every operand is one byte,
a command word is 16 bits, and every value is unsigned. -/

namespace Sys2Proof

/-- R6: a byte. -/
abbrev Byte := BitVec 8

/-- Half a byte: a command code, a payload length, a BCD digit. -/
abbrev Nibble := BitVec 4

/-- R78: a 16-bit host command word. -/
abbrev CommandWord := BitVec 16

end Sys2Proof
end

