-- ==== Sys2Proof/Syntax.lean ====
section
/-! DEFINITION. The instructions: one constructor for each row of spec/opcode_table.json, and the small closed types they use. -/

namespace Sys2Proof

/-- R8: the eight families of the closed enumeration CommandCode; their nibbles are CODESET. -/
inductive CodeFamily
  | interfaceStatus | programming | accessoryReport | accessoryControl | status | allLocos | loco | interface
  deriving DecidableEq, Repr

/-- R22, R72: the classification of a frame by its preamble. -/
inductive FrameKind
  | direct
  | broadcast
  deriving DecidableEq, Repr

/-- One constructor per row of spec/opcode_table.json, in the table's order. -/
inductive Instr
  /-- CKS_CLR, R101 -/
  | cksClr
  /-- CKS_ADD b, R102 -/
  | cksAdd (b : Byte)
  /-- CKS_VERIFY e, R103 -/
  | cksVerify (e : Byte)
  /-- TX_START c, R121: the whole-byte code is the family's nibble over a zero nibble. -/
  | txStart (c : CodeFamily)
  /-- TX_PARAM b, R122 -/
  | txParam (b : Byte)
  /-- TX_SEND, R123 -/
  | txSend
  /-- RX_RELEASE, R147 -/
  | rxRelease
  /-- UNPACK ctx, R170 -/
  | unpack (ctx : Bool)
  /-- BCD b, R184 -/
  | bcd (b : Byte)
  /-- RST, R210 -/
  | rst
  /-- RX_BYTE, R140: `b` is the byte the receive port offers. -/
  | rxByte (b : Byte)
  /-- RegRead a, R55 -/
  | regRead (a : Byte)
  /-- A held interface-status frame unpacked with ctx = 1, R173. -/
  | ifstatusReply (payload : List Byte)
  /-- A held interface-status frame of one byte unpacked with ctx = 0, R174. -/
  | ifstatusStatus (status : Byte)
  /-- A held direct status frame [0x10, cvb, value], R176, R177. -/
  | progResult10 (cvb value : Byte)
  /-- A held direct status frame [0x14, cvb, value]. -/
  | progResult14 (cvb value : Byte)
  /-- A held direct status frame [0x15, cvb, value]. -/
  | progResult15 (cvb value : Byte)
  /-- A held direct status frame [0x16, cvb, value]. -/
  | progResult16 (cvb value : Byte)
  /-- A held direct status frame [0x17, cvb, value]. -/
  | progResult17 (cvb value : Byte)
  /-- A held broadcast status frame [state], R178. -/
  | trackStatus (state : Byte)
  /-- A held interface frame [0x01] ++ data, R179. -/
  | ifaceReply01 (data : List Byte)
  /-- A held interface frame [0x02] ++ data. -/
  | ifaceReply02 (data : List Byte)
  /-- A held interface frame [0x03] ++ data. -/
  | ifaceReply03 (data : List Byte)
  /-- A held accessory-report frame [address, flags], R180. -/
  | accReport (address flags : Byte)
  /-- An outbound frame, R75, R120, emitted by TX_SEND. -/
  | frameOut (c : CodeFamily) (params : List Byte)
  /-- An inbound frame with a recognized preamble and a right check byte, R70, received by RX_BYTE steps; any code nibble. -/
  | frameIn (kind : FrameKind) (code : Nibble) (payload : List Byte)
  deriving DecidableEq, Repr

/-- Where the bits of an instruction stand on the block's interfaces (20_memory.md R50). -/
inductive Encoding
  /-- a word on the command port, R78 -/
  | command (w : CommandWord)
  /-- the byte the receive port offers, R140 -/
  | receive (b : Byte)
  /-- an address on the read port, R55 -/
  | read (a : Byte)
  /-- a READY frame in RX_KIND, RX_HDR and RX_BUF that UNPACK ctx is to decode, R170 -/
  | held (ctx : Bool) (kind : FrameKind) (hdr : Byte) (payload : List Byte)
  /-- the bytes of a whole inbound frame in stream order, R70 -/
  | inbound (bytes : List Byte)
  /-- the bytes of a whole outbound frame in stream order, R75 -/
  | outbound (bytes : List Byte)
  deriving DecidableEq, Repr

end Sys2Proof
end

