-- ==== Sys2Proof/Machine/Bits.lean ====
section
/-! DEFINITION. Bit fields, byte order, the fixed values of 00_scope.md R6 and R8, and the checksum function R100. -/

namespace Sys2Proof

/-- `v[7:4]` of a byte (R9). -/
def hiNibble (b : Byte) : Nibble := b.extractLsb' 4 4

/-- `v[3:0]` of a byte (R9). -/
def loNibble (b : Byte) : Nibble := b.extractLsb' 0 4

/-- `h : l` (R9): the high nibble first. -/
def joinNibbles (h l : Nibble) : Byte := h ++ l

/-- `first : second` (R9, R52): the first byte is the high-order one. -/
def joinBytes (first second : Byte) : BitVec 16 := first ++ second

/-- `v[15:8]` of a 16-bit value. -/
def hiByte (w : BitVec 16) : Byte := w.extractLsb' 8 8

/-- `v[7:0]` of a 16-bit value. -/
def loByte (w : BitVec 16) : Byte := w.extractLsb' 0 8

/-- R100: `XOR([]) = 0x00` and `XOR(s ++ [b]) = XOR(s) ^ b`. -/
def xorSum (s : List Byte) : Byte := s.foldl (fun acc b => acc ^^^ b) 0x00#8

/-- R6: PREAMBLE_DIRECT and PREAMBLE_BCAST. -/
def FrameKind.preamble : FrameKind → BitVec 16
  | .direct => 0xFFFE
  | .broadcast => 0xFFFD

/-- R72: "Any other value is a protocol error". -/
def FrameKind.ofPreamble (p : BitVec 16) : Option FrameKind :=
  if p = 0xFFFE then some .direct else if p = 0xFFFD then some .broadcast else none

/-- R6: TRACK_STATE_ON. -/
def trackStateOn : Byte := 0x01

/-- R8: the code nibble of each family. -/
def CodeFamily.nibble : CodeFamily → Nibble
  | .interfaceStatus => 0x0
  | .programming => 0x2
  | .accessoryReport => 0x4
  | .accessoryControl => 0x5
  | .status => 0x6
  | .allLocos => 0x8
  | .loco => 0xE
  | .interface => 0xF

/-- R8: the families in the table's order; their nibbles are CODESET. -/
def CodeFamily.all : List CodeFamily :=
  [.interfaceStatus, .programming, .accessoryReport, .accessoryControl, .status, .allLocos, .loco, .interface]

/-- R8: the family of a code nibble, none outside CODESET. -/
def CodeFamily.ofNibble (n : Nibble) : Option CodeFamily :=
  CodeFamily.all.find? fun c => c.nibble == n

/-- R71: the header byte, code nibble over the payload byte count. -/
def headerByte (code : Nibble) (payload : List Byte) : Byte :=
  joinNibbles code (BitVec.ofNat 4 payload.length)

/-- R71: the payload byte count a header announces. -/
def headerLength (h : Byte) : Nat := (loNibble h).toNat

/-- R75, R120: `[0xFF, 0xFE, C:n] ++ p ++ [XOR(p)]`; the check byte excludes the header. -/
def outboundBytes (code : Nibble) (params : List Byte) : List Byte :=
  [0xFF, 0xFE, headerByte code params] ++ params ++ [xorSum params]

/-- R70, R74: preamble, header, payload, check byte over header and payload. -/
def inboundBytes (kind : FrameKind) (hdr : Byte) (payload : List Byte) : List Byte :=
  [hiByte kind.preamble, loByte kind.preamble, hdr] ++ payload ++ [xorSum (hdr :: payload)]

end Sys2Proof
end

