-- ==== Sys2Proof/WellFormed.lean ====
section
/-! DEFINITION. When a term of `Instr` is an instruction: what its type does not say is that a payload fits the header's
length nibble (R6 MAX_PAYLOAD, R71, R75, R76). Command codes are well formed by their type (R79, R121). -/

namespace Sys2Proof

/-- R76: an interface payload is a subcode and 0 to 14 data bytes; R71, R75: every other payload is 0 to 15 bytes. -/
abbrev Instr.WellFormed : Instr → Prop
  | .ifstatusReply payload => payload.length ≤ 15
  | .ifaceReply01 data => data.length ≤ 14
  | .ifaceReply02 data => data.length ≤ 14
  | .ifaceReply03 data => data.length ≤ 14
  | .frameOut _ params => params.length ≤ 15
  | .frameIn _ _ payload => payload.length ≤ 15
  | .cksClr => True
  | .cksAdd _ => True
  | .cksVerify _ => True
  | .txStart _ => True
  | .txParam _ => True
  | .txSend => True
  | .rxRelease => True
  | .unpack _ => True
  | .bcd _ => True
  | .rst => True
  | .rxByte _ => True
  | .regRead _ => True
  | .ifstatusStatus _ => True
  | .progResult10 _ _ => True
  | .progResult14 _ _ => True
  | .progResult15 _ _ => True
  | .progResult16 _ _ => True
  | .progResult17 _ _ => True
  | .trackStatus _ => True
  | .accReport _ _ => True

end Sys2Proof
end

