-- ==== Sys2Proof/Decode.lean ====
section
/-! DEFINITION. The decoder, total and refusing by name, then the encoder, from the same tables of 30_encoding.md (R70 to R80).
Each of the block's interfaces has a decoder of its own; `decode` puts them side by side. -/

namespace Sys2Proof

/-- Why the decoder refuses bits. -/
inductive Reject
  /-- R79, R80: the opcode is not in the map. -/
  | unlistedOpcode
  /-- R79, R80: reserved IMM bits are set. -/
  | reservedOperand
  /-- R121: TX_START's code has a non-zero low nibble or is not in CODESET. -/
  | codeNotInCodeset
  /-- a held payload is not as long as its header says, so it is no held frame (R71) -/
  | lengthMismatch
  /-- R182: the code nibble has no decode row. -/
  | codeNotInTable
  /-- R174: interface-status with ctx = 0 and L other than 1. -/
  | ifstatusLength
  /-- R175: neither of the two status shapes. -/
  | statusShape
  /-- R177: a status subcode outside the five. -/
  | statusSubcode
  /-- R179: an interface frame without a subcode, or with one outside 0x01 to 0x03. -/
  | interfaceSubcode
  /-- R180: an accessory report of a length other than 2. -/
  | accessoryLength
  /-- R72: neither preamble. -/
  | unrecognizedPreamble
  /-- the bytes end before the frame does -/
  | truncatedFrame
  /-- R74, R75: the check byte is wrong for the direction. -/
  | wrongCheckByte
  /-- bytes follow the frame -/
  | trailingBytes
  deriving DecidableEq, Repr

/-- R79: a command that has no operand needs IMM = 0x00. -/
def withoutOperand (imm : Byte) (i : Instr) : Except Reject Instr :=
  if imm = 0x00 then .ok i else .error .reservedOperand

/-- R121: `c[3:0] = 0` and `c[7:4]` in CODESET. -/
def decodeTxStart (imm : Byte) : Except Reject Instr :=
  if loNibble imm = 0x0 then
    match CodeFamily.ofNibble (hiNibble imm) with
    | some c => .ok (.txStart c)
    | none => .error .codeNotInCodeset
  else .error .codeNotInCodeset

/-- R78 to R80, R211: OP in bits 15-8, IMM in bits 7-0; every unlisted opcode and every broken IMM constraint is illegal. -/
def decodeCommand (w : CommandWord) : Except Reject Instr :=
  let op := hiByte w
  let imm := loByte w
  if op = 0x01 then withoutOperand imm .cksClr
  else if op = 0x02 then .ok (.cksAdd imm)
  else if op = 0x03 then .ok (.cksVerify imm)
  else if op = 0x10 then decodeTxStart imm
  else if op = 0x11 then .ok (.txParam imm)
  else if op = 0x12 then withoutOperand imm .txSend
  else if op = 0x20 then withoutOperand imm .rxRelease
  else if op = 0x21 then
    if imm = 0x00 then .ok (.unpack false)
    else if imm = 0x01 then .ok (.unpack true)
    else .error .reservedOperand
  else if op = 0x30 then .ok (.bcd imm)
  else if op = 0xF0 then withoutOperand imm .rst
  else .error .unlistedOpcode

/-- R176, R177: the five programming-result rows, told apart by the subcode. -/
def decodeProgResult (sub cvb value : Byte) : Except Reject Instr :=
  if sub = 0x10 then .ok (.progResult10 cvb value)
  else if sub = 0x14 then .ok (.progResult14 cvb value)
  else if sub = 0x15 then .ok (.progResult15 cvb value)
  else if sub = 0x16 then .ok (.progResult16 cvb value)
  else if sub = 0x17 then .ok (.progResult17 cvb value)
  else .error .statusSubcode

/-- R179: the three interface rows, told apart by the subcode. -/
def decodeIface (sub : Byte) (data : List Byte) : Except Reject Instr :=
  if sub = 0x01 then .ok (.ifaceReply01 data)
  else if sub = 0x02 then .ok (.ifaceReply02 data)
  else if sub = 0x03 then .ok (.ifaceReply03 data)
  else .error .interfaceSubcode

/-- R173, R174: interface-status; ctx tells the two rows apart. -/
def decodeIfstatus (ctx : Bool) (payload : List Byte) : Except Reject Instr :=
  if ctx then .ok (.ifstatusReply payload)
  else
    match payload with
    | [status] => .ok (.ifstatusStatus status)
    | _ => .error .ifstatusLength

/-- R175: the two status shapes, each with its preamble and its length. -/
def decodeStatus (kind : FrameKind) (payload : List Byte) : Except Reject Instr :=
  match kind, payload with
  | .direct, [sub, cvb, value] => decodeProgResult sub cvb value
  | .broadcast, [state] => .ok (.trackStatus state)
  | _, _ => .error .statusShape

/-- R179: an interface payload starts with a subcode. -/
def decodeInterface : List Byte → Except Reject Instr
  | [] => .error .interfaceSubcode
  | sub :: data => decodeIface sub data

/-- R180: an accessory report is two bytes. -/
def decodeAccessory : List Byte → Except Reject Instr
  | [address, flags] => .ok (.accReport address flags)
  | _ => .error .accessoryLength

/-- R76, R172: the payload shape of a held frame. Whether a track-state byte names a state is not a matter of shape (R178). -/
def decodeHeld (ctx : Bool) (kind : FrameKind) (hdr : Byte) (payload : List Byte) : Except Reject Instr :=
  if payload.length = headerLength hdr then
    match CodeFamily.ofNibble (hiNibble hdr) with
    | some .interfaceStatus => decodeIfstatus ctx payload
    | some .status => decodeStatus kind payload
    | some .interface => decodeInterface payload
    | some .accessoryReport => decodeAccessory payload
    | some .programming => .error .codeNotInTable
    | some .accessoryControl => .error .codeNotInTable
    | some .allLocos => .error .codeNotInTable
    | some .loco => .error .codeNotInTable
    | none => .error .codeNotInTable
  else .error .lengthMismatch

/-- R70 to R74: an inbound frame at the head of a byte sequence, and the bytes after it. -/
def decodeInbound : List Byte → Except Reject (Instr × List Byte)
  | q0 :: q1 :: h :: more =>
    match FrameKind.ofPreamble (joinBytes q0 q1) with
    | none => .error .unrecognizedPreamble
    | some kind =>
      let payload := more.take (headerLength h)
      match more.drop (headerLength h) with
      | [] => .error .truncatedFrame
      | k :: after =>
        if k = xorSum (h :: payload) then .ok (.frameIn kind (hiNibble h) payload, after)
        else .error .wrongCheckByte
  | _ => .error .truncatedFrame

/-- R75: an outbound frame at the head of a byte sequence, and the bytes after it. -/
def decodeOutbound : List Byte → Except Reject (Instr × List Byte)
  | q0 :: q1 :: h :: more =>
    if joinBytes q0 q1 = 0xFFFE then
      match CodeFamily.ofNibble (hiNibble h) with
      | none => .error .codeNotInCodeset
      | some c =>
        let params := more.take (headerLength h)
        match more.drop (headerLength h) with
        | [] => .error .truncatedFrame
        | k :: after =>
          if k = xorSum params then .ok (.frameOut c params, after) else .error .wrongCheckByte
    else .error .unrecognizedPreamble
  | _ => .error .truncatedFrame

/-- A byte sequence that is one frame and nothing more. -/
def wholeFrame (r : Except Reject (Instr × List Byte)) : Except Reject Instr :=
  match r with
  | .ok (i, []) => .ok i
  | .ok (_, _ :: _) => .error .trailingBytes
  | .error e => .error e

/-- The decoder of every interface. -/
def decode : Encoding → Except Reject Instr
  | .command w => decodeCommand w
  | .receive b => .ok (.rxByte b)
  | .read a => .ok (.regRead a)
  | .held ctx kind hdr payload => decodeHeld ctx kind hdr payload
  | .inbound bytes => wholeFrame (decodeInbound bytes)
  | .outbound bytes => wholeFrame (decodeOutbound bytes)

/-! ### The encoder -/

/-- R78: `OP : IMM`. -/
def commandWord (op imm : Byte) : CommandWord := joinBytes op imm

/-- R121: the whole-byte command code, its low nibble zero. -/
def CodeFamily.wholeByte (c : CodeFamily) : Byte := joinNibbles c.nibble 0x0

/-- R70, R71, R76: a held frame of a family, its header made from its payload. -/
def heldFrame (ctx : Bool) (kind : FrameKind) (c : CodeFamily) (payload : List Byte) : Encoding :=
  .held ctx kind (headerByte c.nibble payload) payload

/-- The bits of an instruction, from the tables of R76 and R79. Where a row takes any preamble or any ctx, the encoder writes
the direct preamble and ctx = 0 (log entry 6). -/
def encode : Instr → Encoding
  | .cksClr => .command (commandWord 0x01 0x00)
  | .cksAdd b => .command (commandWord 0x02 b)
  | .cksVerify e => .command (commandWord 0x03 e)
  | .txStart c => .command (commandWord 0x10 c.wholeByte)
  | .txParam b => .command (commandWord 0x11 b)
  | .txSend => .command (commandWord 0x12 0x00)
  | .rxRelease => .command (commandWord 0x20 0x00)
  | .unpack ctx => .command (commandWord 0x21 (if ctx then 0x01 else 0x00))
  | .bcd b => .command (commandWord 0x30 b)
  | .rst => .command (commandWord 0xF0 0x00)
  | .rxByte b => .receive b
  | .regRead a => .read a
  | .ifstatusReply payload => heldFrame true .direct .interfaceStatus payload
  | .ifstatusStatus status => heldFrame false .direct .interfaceStatus [status]
  | .progResult10 cvb value => heldFrame false .direct .status [0x10, cvb, value]
  | .progResult14 cvb value => heldFrame false .direct .status [0x14, cvb, value]
  | .progResult15 cvb value => heldFrame false .direct .status [0x15, cvb, value]
  | .progResult16 cvb value => heldFrame false .direct .status [0x16, cvb, value]
  | .progResult17 cvb value => heldFrame false .direct .status [0x17, cvb, value]
  | .trackStatus state => heldFrame false .broadcast .status [state]
  | .ifaceReply01 data => heldFrame false .direct .interface (0x01 :: data)
  | .ifaceReply02 data => heldFrame false .direct .interface (0x02 :: data)
  | .ifaceReply03 data => heldFrame false .direct .interface (0x03 :: data)
  | .accReport address flags => heldFrame false .direct .accessoryReport [address, flags]
  | .frameOut c params => .outbound (outboundBytes c.nibble params)
  | .frameIn kind code payload => .inbound (inboundBytes kind (headerByte code payload) payload)

/-! ### The opcode table's words (log entry 10) -/

/-- The answer of a decoder as an option. -/
def decoded (r : Except Reject Instr) : Option Instr :=
  match r with
  | .ok i => some i
  | .error _ => none

/-- The first `n` bytes of a number, least significant first. -/
def bytesOfNat : Nat → Nat → List Byte
  | 0, _ => []
  | n + 1, w => BitVec.ofNat 8 w :: bytesOfNat n (w / 256)

/-- A 16-bit row: a command word, else a row of format HDR+SUB, whose header the table puts in bits 15-8 and whose subcode in
bits 7-0; the payload bytes after the subcode are 0. -/
def decodeRow16 (w : CommandWord) : Except Reject Instr :=
  match decodeCommand w with
  | .ok i => .ok i
  | .error e =>
    let hdr := hiByte w
    if hdr = 0x63 ∨ (hiNibble hdr = 0xF ∧ headerLength hdr ≠ 0) then
      decodeHeld false .direct hdr (loByte w :: List.replicate (headerLength hdr - 1) 0x00)
    else .error e

/-- An 8-bit row of format HDR with a payload of zeros: IFSTATUS_STATUS is 0x01, IFSTATUS_REPLY every other 0x0L, TRACK_STATUS
0x61, ACC_REPORT 0x42. Any other byte is RX_BYTE's, whose row takes any byte. -/
def decodeRow8 (w : Byte) : Except Reject Instr :=
  let payload := List.replicate (headerLength w) 0x00#8
  if w = 0x01 then decodeHeld false .direct w payload
  else if hiNibble w = 0x0 then decodeHeld true .direct w payload
  else if w = 0x61 then decodeHeld false .broadcast w payload
  else if w = 0x42 then decodeHeld false .direct w payload
  else .ok (.rxByte w)

/-- A row of format FRAME: the bytes of a whole frame, FRAME_IN before FRAME_OUT where both fit. -/
def decodeRowFrame (bytes : List Byte) : Except Reject Instr :=
  match wholeFrame (decodeInbound bytes) with
  | .ok i => .ok i
  | .error _ => wholeFrame (decodeOutbound bytes)

/-- The instruction the decoder reads from a row's word, its bits numbered as spec/opcode_table.json numbers them. -/
def decodeTableWord (nbits w : Nat) : Option Instr :=
  if nbits = 16 then decoded (decodeRow16 (BitVec.ofNat 16 w))
  else if nbits = 8 then decoded (decodeRow8 (BitVec.ofNat 8 w))
  else decoded (decodeRowFrame (bytesOfNat (nbits / 8) w))

end Sys2Proof
end

