-- ==== Sys2Proof/Config.lean ====
section
/-! DEFINITION. The open implementation parameters of 00_scope.md R7. "The model takes each as an argument": they stand in
`Machine.State.cfg`, which no step writes, so that every statement holds for every value (log entry 4). -/

namespace Sys2Proof

/-- R7: the three open parameters. -/
structure Config where
  /-- TRACK_STATE_OFF -/
  trackStateOff : Byte
  /-- TRACK_STATE_PROG -/
  trackStateProg : Byte
  /-- ACC_UNDET_BIT, a bit index 0 to 7 -/
  accUndetBit : Fin 8
  deriving DecidableEq, Repr

/-- R7's constraints: OFF, ON (0x01, R6) and PROG are three different bytes. -/
abbrev Config.Valid (c : Config) : Prop :=
  c.trackStateOff ≠ 0x01#8 ∧ c.trackStateProg ≠ 0x01#8 ∧ c.trackStateOff ≠ c.trackStateProg

/-- PRESUMED (log entry 4): the defaults R7 prints and calls "not normative". No statement rests on them. -/
def Config.default : Config :=
  { trackStateOff := 0x00, trackStateProg := 0x02, accUndetBit := 6 }

end Sys2Proof
end

