-- ==== Sys2Proof/Machine/State.lean ====
section
/-! DEFINITION. The state of XNCODEC (10_state.md R20 to R47), the reasons a step can stop, and the state after reset
(70_reset_and_hazards.md R260). Enumerated registers are inductive types, so that the values R38, R45 and R230 call never
written cannot be written (log entry 11); their bit codes stand in Machine/Flags.lean. -/

namespace Sys2Proof.Machine

/-- RX_STATE, R21. -/
inductive RxState
  | pre0 | pre1 | hdr | pay | chk | ready | ckerr | desync
  deriving DecidableEq, Repr

/-- TX_STATE, R29. -/
inductive TxState
  | idle | build
  deriving DecidableEq, Repr

/-- OPST, R37, R230: success or the error of the last command. -/
inductive OpStatus
  | ok
  | illegalCommand
  | encodingConstraintError
  | unknownMessageError
  | noFrame
  | invalidFrame
  | txNotStarted
  deriving DecidableEq, Repr

/-- RES_KIND, R38. -/
inductive ResKind
  | none | cmdResult | progResult | accState | trackStatus
  deriving DecidableEq, Repr

/-- RES_AKIND, R44. -/
inductive AccKind
  | outputNoFeedback | outputWithFeedback | input | reserved
  deriving DecidableEq, Repr

/-- RES_TRACK, R45. -/
inductive TrackState
  | off | on | programming
  deriving DecidableEq, Repr

/-- A buffer register file: 15 registers of 8 bits (R26, R32, R42). -/
abbrev Buffer := Vector Byte 15

/-- Every entry 0x00. -/
def zeroBuffer : Buffer := Vector.replicate 15 0x00#8

/-- The decoder's registers, R21 to R28. -/
structure DecoderRegs where
  /-- RX_STATE, R21 -/
  state : RxState
  /-- RX_KIND, R22 -/
  kind : FrameKind
  /-- RX_PRE, R23 -/
  pre : BitVec 16
  /-- RX_HDR, R24 -/
  hdr : Byte
  /-- RX_IDX, R25 -/
  idx : BitVec 4
  /-- RX_BUF, R26 -/
  buf : Buffer
  /-- RX_XOR, R27 -/
  xor : Byte
  /-- RX_CHK, R28 -/
  chk : Byte
  deriving DecidableEq, Repr

/-- The encoder's registers, R29 to R33. -/
structure EncoderRegs where
  /-- TX_STATE, R29 -/
  state : TxState
  /-- TX_CODE, R30 -/
  code : Nibble
  /-- TX_CNT, R31 -/
  cnt : BitVec 4
  /-- TX_BUF, R32 -/
  buf : Buffer
  /-- TX_XOR, R33 -/
  xor : Byte
  deriving DecidableEq, Repr

/-- The checksum unit's registers, R34, R35. -/
structure ChecksumRegs where
  /-- CKS_ACC, R34 -/
  acc : Byte
  /-- CKS_EQ, R35 -/
  eq : Bool
  deriving DecidableEq, Repr

/-- BCD_HI and BCD_LO, R36. -/
structure BcdRegs where
  hi : Nibble
  lo : Nibble
  deriving DecidableEq, Repr

/-- The unpacker's result registers, R38 to R45. -/
structure ResultRegs where
  /-- RES_KIND, R38 -/
  kind : ResKind
  /-- RES_CODE, R39 -/
  code : Byte
  /-- RES_STKIND, R40: true is a raw status byte -/
  stkind : Bool
  /-- RES_STATUS, R40 -/
  status : Byte
  /-- RES_BCST, R41 -/
  bcst : Bool
  /-- RES_PLEN, R42 -/
  plen : BitVec 4
  /-- RES_PAY, R42 -/
  pay : Buffer
  /-- RES_CV, R43 -/
  cv : BitVec 11
  /-- RES_VALUE, R43 -/
  value : Byte
  /-- RES_ADDR, R44 -/
  addr : Byte
  /-- RES_UNDET, R44 -/
  undet : Bool
  /-- RES_AKIND, R44 -/
  akind : AccKind
  /-- RES_NIB, R44 -/
  nib : Bool
  /-- RES_STATEV, R44 -/
  statev : BitVec 4
  /-- RES_TRACK, R45 -/
  track : TrackState
  deriving DecidableEq, Repr

/-- What an agent offers the block, or does at the transport's far end (R5, R50; log entry 1). -/
inductive Offer
  /-- the host issues a command word, R211 -/
  | command (w : CommandWord)
  /-- the transport offers its first pending byte, R140 -/
  | receive
  /-- the host reads a register, R55 -/
  | read (a : Byte)
  /-- the transport is given one more inbound byte, R46 (a), R60 -/
  | arrive (b : Byte)
  /-- the reset input, R260 -/
  | resetInput
  deriving DecidableEq, Repr

/-- The state: the block's registers unit by unit (R2), the two streams of R46, the parameters of R7, and the model's own two
lists. -/
structure State where
  /-- the decoder -/
  rx : DecoderRegs
  /-- the encoder -/
  tx : EncoderRegs
  /-- the checksum unit -/
  cks : ChecksumRegs
  /-- the BCD helper -/
  bcd : BcdRegs
  /-- OPST, R37 -/
  opst : OpStatus
  /-- the unpacker's result -/
  res : ResultRegs
  /-- R46 (a): the transport's pending inbound bytes, the first to be offered first -/
  pending : List Byte
  /-- R46 (b): every byte emitted since the start of the run, oldest first -/
  sent : List Byte
  /-- R7: the implementation parameters; no step writes them -/
  cfg : Config
  /-- the model's own (log entry 3): address and value of every read, oldest first -/
  readLog : List (Byte × Byte)
  /-- the model's own (log entry 1): the agents' offers still to come, oldest first -/
  offers : List Offer
  deriving DecidableEq, Repr

/-- Why the machine stops with a fault. -/
inductive Fault
  /-- Raised by the receive step in PAY when RX_IDX is 15: RX_BUF has no register 15. R145 derives that this cannot happen, and
  `Safety` states it as an invariant. Safe: a stop in states that no run reaches (log entry 5). -/
  | rxIndexOutOfRange
  deriving DecidableEq, Repr

/-- Why an instruction has no meaning. -/
inductive Refusal
  /-- Raised by an arm of `exec` whose instruction has no meaning yet. Safe. No arm raises it. -/
  | notModelled (mnemonic : String)
  deriving DecidableEq, Repr

/-- R260: the decoder after reset. -/
def DecoderRegs.reset : DecoderRegs :=
  { state := .pre0, kind := .direct, pre := 0x0000, hdr := 0x00, idx := 0, buf := zeroBuffer, xor := 0x00, chk := 0x00 }

/-- R260: the encoder after reset. -/
def EncoderRegs.reset : EncoderRegs :=
  { state := .idle, code := 0x0, cnt := 0, buf := zeroBuffer, xor := 0x00 }

/-- R260: the checksum unit after reset. -/
def ChecksumRegs.reset : ChecksumRegs := { acc := 0x00, eq := false }

/-- R260: the BCD registers after reset. -/
def BcdRegs.reset : BcdRegs := { hi := 0x0, lo := 0x0 }

/-- R260: the result registers after reset; also what `clear_result()` writes, R181. -/
def ResultRegs.reset : ResultRegs :=
  { kind := .none, code := 0x00, stkind := false, status := 0x00, bcst := false, plen := 0, pay := zeroBuffer
    cv := 0, value := 0x00, addr := 0x00, undet := false, akind := .outputNoFeedback, nib := false, statev := 0x0
    track := .off }

/-- R260: the machine right after power-on, which is a reset: every register at its reset value, no byte pending (log entry 2),
none emitted yet, the parameters at R7's printed defaults (log entry 4), no offer made (log entry 1). -/
def State.reset : State :=
  { rx := .reset, tx := .reset, cks := .reset, bcd := .reset, opst := .ok, res := .reset
    pending := [], sent := [], cfg := .default, readLog := [], offers := [] }

end Sys2Proof.Machine
end

