-- ==== Sys2Proof/Machine/Flags.lean ====
section
/-! DEFINITION. The bit codes of the enumerated registers and the two packed read registers STATUS (R57) and RES_FLAGS (R58). -/

namespace Sys2Proof.Machine

/-- R21. -/
def RxState.bits : RxState → BitVec 3
  | .pre0 => 0
  | .pre1 => 1
  | .hdr => 2
  | .pay => 3
  | .chk => 4
  | .ready => 5
  | .ckerr => 6
  | .desync => 7

/-- R22: 1 for a broadcast. -/
def rxKindFlag : FrameKind → Bool
  | .direct => false
  | .broadcast => true

/-- R29. -/
def TxState.flag : TxState → Bool
  | .idle => false
  | .build => true

/-- R230: the OPST codes. -/
def OpStatus.code : OpStatus → Byte
  | .ok => 0x00
  | .illegalCommand => 0x01
  | .encodingConstraintError => 0x02
  | .unknownMessageError => 0x03
  | .noFrame => 0x04
  | .invalidFrame => 0x05
  | .txNotStarted => 0x06

/-- R38. -/
def ResKind.bits : ResKind → BitVec 3
  | .none => 0
  | .cmdResult => 1
  | .progResult => 2
  | .accState => 3
  | .trackStatus => 4

/-- R44. -/
def AccKind.bits : AccKind → BitVec 2
  | .outputNoFeedback => 0
  | .outputWithFeedback => 1
  | .input => 2
  | .reserved => 3

/-- R45. -/
def TrackState.bits : TrackState → BitVec 2
  | .off => 0
  | .on => 1
  | .programming => 2

/-- R103: `(CKS_ACC == e) ? 1 : 0`. -/
def checksumEqual (acc e : Byte) : Bool := acc == e

/-- R57: [2:0] RX_STATE, [3] RX_KIND, [4] TX_STATE, [5] CKS_EQ, [7:6] 0. -/
def statusByte (s : State) : Byte :=
  0b00#2 ++ BitVec.ofBool s.cks.eq ++ BitVec.ofBool s.tx.state.flag ++ BitVec.ofBool (rxKindFlag s.rx.kind)
    ++ s.rx.state.bits

/-- R58: [0] RES_STKIND, [1] RES_BCST, [2] RES_UNDET, [3] RES_NIB, [5:4] RES_AKIND, [7:6] RES_TRACK. -/
def resFlags (r : ResultRegs) : Byte :=
  r.track.bits ++ r.akind.bits ++ BitVec.ofBool r.nib ++ BitVec.ofBool r.undet ++ BitVec.ofBool r.bcst
    ++ BitVec.ofBool r.stkind

end Sys2Proof.Machine
end

