-- ==== Sys2Proof/Machine/Operands.lean ====
section
/-! DEFINITION. What the rules read from a frame: header fields, payload and params sequences, the CV number (R177), the
accessory flags (R77, R180), and the message a payload decodes to, case rule by case rule (R172 to R182).
A payload is a list whose length is L, so a pattern of k bytes says L = k. -/

namespace Sys2Proof.Machine

/-- The tables' `status` field of CommandResult, R40. -/
inductive StatusField
  | ok
  | raw (b : Byte)
  deriving DecidableEq, Repr

/-- What `dispatch` returns when it is not UNKNOWN, R172 to R181. -/
inductive Message
  | cmdResult (status : StatusField) (pay : List Byte)
  | progResult (cv : BitVec 11) (value : Byte)
  | accState (addr : Byte) (undet : Bool) (akind : AccKind) (nib : Bool) (statev : BitVec 4)
  | trackStatus (track : TrackState)
  deriving DecidableEq, Repr

/-- `[P[0], ..., P[L-1]]`: the payload of the current frame (R24, R26). -/
def DecoderRegs.payload (r : DecoderRegs) : List Byte := r.buf.toList.take (headerLength r.hdr)

/-- `[TX_BUF[0], ..., TX_BUF[TX_CNT-1]]` (R31, R32). -/
def EncoderRegs.params (t : EncoderRegs) : List Byte := t.buf.toList.take t.cnt.toNat

/-- R141: PRE0, PRE1, HDR, PAY and CHK accept a byte. -/
def RxState.accepting : RxState → Bool
  | .pre0 => true
  | .pre1 => true
  | .hdr => true
  | .pay => true
  | .chk => true
  | .ready => false
  | .ckerr => false
  | .desync => false

/-- R177: CV number assembly; `none` is UNKNOWN. -/
def cvnum (sub cvb : Byte) : Option (BitVec 11) :=
  if sub = 0x10 then some (cvb.setWidth 11)
  else if sub = 0x14 then some (if cvb = 0x00 then 1024 else cvb.setWidth 11)
  else if sub = 0x15 then some (cvb.setWidth 11 + 256)
  else if sub = 0x16 then some (cvb.setWidth 11 + 512)
  else if sub = 0x17 then some (cvb.setWidth 11 + 768)
  else none

/-- R44, R180 (D16): the accessory kind of flags bits 6-5. -/
def AccKind.ofBits (b : BitVec 2) : AccKind :=
  if b = 0b00 then .outputNoFeedback
  else if b = 0b01 then .outputWithFeedback
  else if b = 0b10 then .input
  else .reserved

/-- R173: interface-status, reply to the interface command. -/
def ifstatusReplyCase (payload : List Byte) : Option Message := some (.cmdResult .ok payload)

/-- R174: interface-status, other; L = 1. -/
def ifstatusStatusCase : List Byte → Option Message
  | [status] => some (.cmdResult (.raw status) [status])
  | _ => none

/-- R176: programming result. -/
def progResultCase (sub cvb value : Byte) : Option Message :=
  (cvnum sub cvb).map fun cv => .progResult cv value

/-- R178: track status; the three state bytes are tried in the rule's order. -/
def trackStatusCase (cfg : Config) (s : Byte) : Option Message :=
  if s = cfg.trackStateOff then some (.trackStatus .off)
  else if s = trackStateOn then some (.trackStatus .on)
  else if s = cfg.trackStateProg then some (.trackStatus .programming)
  else none

/-- R175: a status row applies only when both its preamble and its length hold. -/
def statusCase (cfg : Config) (kind : FrameKind) (payload : List Byte) : Option Message :=
  match kind, payload with
  | .direct, [sub, cvb, value] => progResultCase sub cvb value
  | .broadcast, [s] => trackStatusCase cfg s
  | _, _ => none

/-- R179: interface; the subcode is dropped. -/
def ifaceCase : List Byte → Option Message
  | [] => none
  | sub :: data => if sub = 0x01 ∨ sub = 0x02 ∨ sub = 0x03 then some (.cmdResult .ok data) else none

/-- R180: accessory report; L = 2. -/
def accReportCase (cfg : Config) : List Byte → Option Message
  | [addr, f] =>
    some (.accState addr (f.getLsbD cfg.accUndetBit.val) (AccKind.ofBits (f.extractLsb' 5 2)) (f.getLsbD 4) (loNibble f))
  | _ => none

/-- R172, R182: the case rule is selected by the code nibble alone; `none` is UNKNOWN. -/
def dispatch (cfg : Config) (code : Nibble) (payload : List Byte) (kind : FrameKind) (ctx : Bool) : Option Message :=
  match CodeFamily.ofNibble code with
  | some .interfaceStatus => if ctx then ifstatusReplyCase payload else ifstatusStatusCase payload
  | some .status => statusCase cfg kind payload
  | some .interface => ifaceCase payload
  | some .accessoryReport => accReportCase cfg payload
  | some .programming => none
  | some .accessoryControl => none
  | some .allLocos => none
  | some .loco => none
  | none => none

end Sys2Proof.Machine
end

