-- ==== Sys2Proof/Machine/Ops.lean ====
section
/-! DEFINITION. The operations the meanings share: ending a command, the streams, the result registers, reset, and the read map. -/

namespace Sys2Proof.Machine

/-- What one step of a meaning answers. -/
abbrev Result := Host.Outcome State Fault Refusal

/-- Runs the second part where the first gives a next state, and stops where it stops. -/
def andThen (r : Result) (f : State → Result) : Result :=
  match r with
  | .next s => f s
  | .fault e => .fault e
  | .refused e => .refused e

/-! ### Ending a command (R10, R230, R239, R240)

A command error is this block's exception. It is precise: OPST gets the code, beside the writes the command's own rule lists.
There is no vector, saved pc or mode, and no return instruction: OPST keeps the code until the next command. -/

/-- R10, R239: `raise E()`. -/
def raise (e : OpStatus) (s : State) : State := { s with opst := e }

/-- R10: `ok`. -/
def complete (s : State) : State := { s with opst := .ok }

/-! ### The streams (R46) -/

/-- R10, R140: `Take()` removes the first pending byte. -/
def take (s : State) : State := { s with pending := s.pending.tail }

/-- R46 (a), R60: the transport is given bytes, which it will offer after those it has. -/
def arrive (bytes : List Byte) (s : State) : State := { s with pending := s.pending ++ bytes }

/-- R124: `Emit(s)` appends all of s to the transmit stream. -/
def emit (bytes : List Byte) (s : State) : State := { s with sent := s.sent ++ bytes }

/-! ### Reset (R210, R260, R262) -/

/-- R260: every register at its reset value. R262: the streams stay; the parameters and the model's own lists are no registers. -/
def resetBlock (s : State) : State :=
  { s with rx := .reset, tx := .reset, cks := .reset, bcd := .reset, opst := .ok, res := .reset }

/-! ### The result registers (R170, R181) -/

/-- R181: `clear_result()`. -/
def clearResult (s : State) : State := { s with res := .reset }

/-- The RES_PAY file that holds a byte sequence, 0x00 above it (R42). -/
def payBuffer (bytes : List Byte) : Buffer := Vector.ofFn fun i : Fin 15 => bytes.getD i.val 0x00

/-- R181: the fields of a message's variant, over cleared registers. -/
def messageFields : Message → ResultRegs
  | .cmdResult .ok pay =>
    { ResultRegs.reset with kind := .cmdResult, plen := BitVec.ofNat 4 pay.length, pay := payBuffer pay }
  | .cmdResult (.raw b) pay =>
    { ResultRegs.reset with
      kind := .cmdResult, stkind := true, status := b, plen := BitVec.ofNat 4 pay.length, pay := payBuffer pay }
  | .progResult cv value => { ResultRegs.reset with kind := .progResult, cv := cv, value := value }
  | .accState addr undet akind nib statev =>
    { ResultRegs.reset with kind := .accState, addr := addr, undet := undet, akind := akind, nib := nib, statev := statev }
  | .trackStatus track => { ResultRegs.reset with kind := .trackStatus, track := track }

/-- R181: `clear_result(); write_result(r)`, with RES_CODE <- RX_HDR & 0xF0 and RES_BCST <- RX_KIND. -/
def writeResult (m : Message) (s : State) : State :=
  { s with res := { messageFields m with code := s.rx.hdr &&& 0xF0, bcst := rxKindFlag s.rx.kind } }

/-- R170, R171, R181, R236: the checks of UNPACK in their order, then the decoded message or UNKNOWN (`none`). -/
def unpackHeld (m : Option Message) (s : State) : State :=
  if s.rx.state = .ckerr then raise .invalidFrame (clearResult s)
  else if s.rx.state ≠ .ready then raise .noFrame (clearResult s)
  else
    match m with
    | none => raise .unknownMessageError (clearResult s)
    | some msg => complete (writeResult msg s)

/-- R175: a case that needs the held frame to have come with a given preamble; UNKNOWN otherwise. -/
def withPreamble (kind : FrameKind) (m : Option Message) (s : State) : Option Message :=
  if s.rx.kind = kind then m else none

/-! ### The read map (R55, R56) -/

/-- A buffer's 15 rows of the read map from a base address. -/
def bufferRows (base : Nat) (buf : Buffer) : List (Byte × Byte) :=
  buf.toList.mapIdx fun i b => (BitVec.ofNat 8 (base + i), b)

/-- R56, 0x00 to 0x0D. -/
def controlRows (s : State) : List (Byte × Byte) :=
  [(0x00, statusByte s), (0x01, s.opst.code), (0x02, hiByte s.rx.pre), (0x03, loByte s.rx.pre),
   (0x04, s.rx.hdr), (0x05, s.rx.idx.setWidth 8), (0x06, s.rx.xor), (0x07, s.rx.chk),
   (0x08, joinNibbles s.tx.code 0x0), (0x09, s.tx.cnt.setWidth 8), (0x0A, s.tx.xor), (0x0B, s.cks.acc),
   (0x0C, s.bcd.hi.setWidth 8), (0x0D, s.bcd.lo.setWidth 8)]

/-- R56, 0x10 to 0x19. -/
def resultRows (r : ResultRegs) : List (Byte × Byte) :=
  [(0x10, r.kind.bits.setWidth 8), (0x11, r.code), (0x12, resFlags r), (0x13, r.status),
   (0x14, (r.cv.extractLsb' 8 3).setWidth 8), (0x15, r.cv.extractLsb' 0 8), (0x16, r.value), (0x17, r.addr),
   (0x18, r.statev.setWidth 8), (0x19, r.plen.setWidth 8)]

/-- R56: the rows of the read map. -/
def readMap (s : State) : List (Byte × Byte) :=
  controlRows s ++ resultRows s.res ++ bufferRows 0x20 s.rx.buf ++ bufferRows 0x30 s.tx.buf ++ bufferRows 0x40 s.res.pay

/-- R55: `RegRead(a)`; an address the map does not list reads 0x00. -/
def regRead (s : State) (a : Byte) : Byte := ((readMap s).lookup a).getD 0x00

end Sys2Proof.Machine
end

