-- ==== Sys2Proof/Machine/Checksum.lean ====
section
/-! DEFINITION. The checksum unit's commands (40_checksum.md R101 to R103). -/

namespace Sys2Proof.Machine

/-- R101. -/
def execCksClr (s : State) : Result :=
  .next (complete { s with cks := { s.cks with acc := 0x00 } })

/-- R102. -/
def execCksAdd (b : Byte) (s : State) : Result :=
  .next (complete { s with cks := { s.cks with acc := s.cks.acc ^^^ b } })

/-- R103. -/
def execCksVerify (e : Byte) (s : State) : Result :=
  .next (complete { s with cks := { s.cks with eq := checksumEqual s.cks.acc e } })

end Sys2Proof.Machine
end

