-- ==== Sys2Proof/Machine/Decoder.lean ====
section
/-! DEFINITION. The frame decoder: the receive step (42_decoder.md R140 to R146), RX_RELEASE (R147), and a whole inbound frame
(R70, R148). -/

namespace Sys2Proof.Machine

/-- R142. -/
def rxPre0 (b : Byte) (s : State) : State :=
  { s with rx := { s.rx with pre := joinBytes b (loByte s.rx.pre), state := .pre1 } }

/-- R143. -/
def rxPre1 (b : Byte) (s : State) : State :=
  let p := joinBytes (hiByte s.rx.pre) b
  match FrameKind.ofPreamble p with
  | some kind => { s with rx := { s.rx with pre := p, kind := kind, state := .hdr } }
  | none => { s with rx := { s.rx with pre := p, state := .desync } }

/-- R144. -/
def rxHeader (b : Byte) (s : State) : State :=
  { s with rx := { s.rx with hdr := b, xor := b, idx := 0, state := if loNibble b = 0 then .chk else .pay } }

/-- R145: RX_IDX is read before the write. RX_BUF has no register 15 (log entry 5). -/
def rxPayload (b : Byte) (s : State) : Result :=
  if s.rx.idx = 15 then .fault .rxIndexOutOfRange
  else
    .next
      { s with
        rx := { s.rx with
          buf := s.rx.buf.setIfInBounds s.rx.idx.toNat b
          xor := s.rx.xor ^^^ b
          idx := s.rx.idx + 1
          state := if s.rx.idx + 1 = loNibble s.rx.hdr then .chk else s.rx.state } }

/-- R146. -/
def rxCheck (b : Byte) (s : State) : State :=
  { s with rx := { s.rx with chk := b, state := if b = s.rx.xor then .ready else .ckerr } }

/-- R140: the rule for the current RX_STATE. The three holding states take no byte (R141). -/
def receive (b : Byte) (s : State) : Result :=
  match s.rx.state with
  | .pre0 => .next (rxPre0 b s)
  | .pre1 => .next (rxPre1 b s)
  | .hdr => .next (rxHeader b s)
  | .pay => rxPayload b s
  | .chk => .next (rxCheck b s)
  | .ready => .next s
  | .ckerr => .next s
  | .desync => .next s

/-- R140, R141: the offered byte is taken and received while the decoder accepts; otherwise it stays pending. -/
def execRxByte (b : Byte) (s : State) : Result :=
  if s.rx.state.accepting then receive b (take s) else .next s

/-- The receive steps of a byte sequence that the transport offers, byte after byte. -/
def receiveAll : List Byte → State → Result
  | [], s => .next s
  | b :: bytes, s => andThen (execRxByte b s) (receiveAll bytes)

/-- R70, R148: the receive steps of a whole frame, whose bytes stand first among the pending ones (log entry 7). -/
def execFrameIn (kind : FrameKind) (code : Nibble) (payload : List Byte) (s : State) : Result :=
  receiveAll (inboundBytes kind (headerByte code payload) payload) s

/-- R147. -/
def execRxRelease (s : State) : Result :=
  if s.rx.state = .ready ∨ s.rx.state = .ckerr then
    .next (complete { s with rx := { s.rx with state := .pre0 } })
  else .next (raise .noFrame s)

end Sys2Proof.Machine
end

