-- ==== Sys2Proof/Machine/Encoder.lean ====
section
/-! DEFINITION. The frame encoder's commands (41_encoder.md R121 to R124) and the outbound frame they emit (R75, R120). -/

namespace Sys2Proof.Machine

/-- R121. -/
def execTxStart (c : CodeFamily) (s : State) : Result :=
  .next (complete { s with tx := { s.tx with state := .build, code := c.nibble, cnt := 0, xor := 0x00 } })

/-- R122: TxNotStarted, then the 15-byte limit, then the write. -/
def execTxParam (b : Byte) (s : State) : Result :=
  if s.tx.state = .idle then .next (raise .txNotStarted s)
  else if s.tx.cnt = 15 then
    .next (raise .encodingConstraintError { s with tx := { s.tx with state := .idle } })
  else
    .next (complete
      { s with
        tx := { s.tx with
          buf := s.tx.buf.setIfInBounds s.tx.cnt.toNat b
          xor := s.tx.xor ^^^ b
          cnt := s.tx.cnt + 1 } })

/-- R123: the emission from given code, params and check byte, or TxNotStarted. -/
def sendFrame (bytes : List Byte) (s : State) : State :=
  if s.tx.state = .idle then raise .txNotStarted s
  else complete { emit bytes s with tx := { s.tx with state := .idle } }

/-- R123. -/
def execTxSend (s : State) : Result :=
  .next (sendFrame ([0xFF, 0xFE, joinNibbles s.tx.code s.tx.cnt] ++ s.tx.params ++ [s.tx.xor]) s)

/-- R75, R120: the frame TX_SEND emits when the encoder holds this code and these params (log entry 7). -/
def execFrameOut (c : CodeFamily) (params : List Byte) (s : State) : Result :=
  .next (sendFrame (outboundBytes c.nibble params) s)

end Sys2Proof.Machine
end

