-- ==== Sys2Proof/Machine/System.lean ====
section
/-! DEFINITION. RST (44_system.md R210), the illegal word (R212), and the read port step (20_memory.md R55). -/

namespace Sys2Proof.Machine

/-- R210: every register at its reset value, then `ok`. -/
def execRst (s : State) : Result := .next (complete (resetBlock s))

/-- R212: an illegal word writes OPST and nothing else. -/
def illegalWord (s : State) : State := raise .illegalCommand s

/-- R55: a read changes no state of the block; the host gets the value (log entry 3). -/
def execRegRead (a : Byte) (s : State) : Result :=
  .next { s with readLog := s.readLog ++ [(a, regRead s a)] }

end Sys2Proof.Machine
end

