-- ==== Sys2Proof/Machine/Unpacker.lean ====
section
/-! DEFINITION. UNPACK (43_unpacker.md R170), the payload shapes it decodes (R173 to R180), and BCD (R184).
A shape's meaning is UNPACK of a held frame of that shape, the payload bytes taken from the instruction (log entry 6). -/

namespace Sys2Proof.Machine

/-- R170: `r = dispatch(C, L, P, BC, ctx)` over the held frame. -/
def execUnpack (ctx : Bool) (s : State) : Result :=
  .next (unpackHeld (dispatch s.cfg (hiNibble s.rx.hdr) s.rx.payload s.rx.kind ctx) s)

/-- R173. -/
def execIfstatusReply (payload : List Byte) (s : State) : Result :=
  .next (unpackHeld (ifstatusReplyCase payload) s)

/-- R174. -/
def execIfstatusStatus (status : Byte) (s : State) : Result :=
  .next (unpackHeld (ifstatusStatusCase [status]) s)

/-- R175 to R177, subcode 0x10. -/
def execProgResult10 (cvb value : Byte) (s : State) : Result :=
  .next (unpackHeld (withPreamble .direct (progResultCase 0x10 cvb value) s) s)

/-- R175 to R177, subcode 0x14. -/
def execProgResult14 (cvb value : Byte) (s : State) : Result :=
  .next (unpackHeld (withPreamble .direct (progResultCase 0x14 cvb value) s) s)

/-- R175 to R177, subcode 0x15. -/
def execProgResult15 (cvb value : Byte) (s : State) : Result :=
  .next (unpackHeld (withPreamble .direct (progResultCase 0x15 cvb value) s) s)

/-- R175 to R177, subcode 0x16. -/
def execProgResult16 (cvb value : Byte) (s : State) : Result :=
  .next (unpackHeld (withPreamble .direct (progResultCase 0x16 cvb value) s) s)

/-- R175 to R177, subcode 0x17. -/
def execProgResult17 (cvb value : Byte) (s : State) : Result :=
  .next (unpackHeld (withPreamble .direct (progResultCase 0x17 cvb value) s) s)

/-- R175, R178. -/
def execTrackStatus (state : Byte) (s : State) : Result :=
  .next (unpackHeld (withPreamble .broadcast (trackStatusCase s.cfg state) s) s)

/-- R179, subcode 0x01. -/
def execIfaceReply01 (data : List Byte) (s : State) : Result :=
  .next (unpackHeld (ifaceCase (0x01 :: data)) s)

/-- R179, subcode 0x02. -/
def execIfaceReply02 (data : List Byte) (s : State) : Result :=
  .next (unpackHeld (ifaceCase (0x02 :: data)) s)

/-- R179, subcode 0x03. -/
def execIfaceReply03 (data : List Byte) (s : State) : Result :=
  .next (unpackHeld (ifaceCase (0x03 :: data)) s)

/-- R180. -/
def execAccReport (address flags : Byte) (s : State) : Result :=
  .next (unpackHeld (accReportCase s.cfg [address, flags]) s)

/-- R183, R184: no validation that a digit is at most 9 (I1). -/
def execBcd (b : Byte) (s : State) : Result :=
  .next (complete { s with bcd := { hi := hiNibble b, lo := loNibble b } })

end Sys2Proof.Machine
end

