-- ==== Sys2Proof/Machine/Dispatch.lean ====
section
/-! DEFINITION. The meaning of each instruction, one arm per constructor. -/

namespace Sys2Proof.Machine

def exec (i : Instr) (s : State) : Host.Outcome State Fault Refusal :=
  match i with
  -- command words
  | .cksClr => Sys2Proof.Machine.execCksClr s
  | .cksAdd b => Sys2Proof.Machine.execCksAdd b s
  | .cksVerify e => Sys2Proof.Machine.execCksVerify e s
  | .txStart c => Sys2Proof.Machine.execTxStart c s
  | .txParam b => Sys2Proof.Machine.execTxParam b s
  | .txSend => Sys2Proof.Machine.execTxSend s
  | .rxRelease => Sys2Proof.Machine.execRxRelease s
  | .unpack ctx => Sys2Proof.Machine.execUnpack ctx s
  | .bcd b => Sys2Proof.Machine.execBcd b s
  | .rst => Sys2Proof.Machine.execRst s
  -- port steps
  | .rxByte b => Sys2Proof.Machine.execRxByte b s
  | .regRead a => Sys2Proof.Machine.execRegRead a s
  -- payload shapes of a held frame
  | .ifstatusReply payload => Sys2Proof.Machine.execIfstatusReply payload s
  | .ifstatusStatus status => Sys2Proof.Machine.execIfstatusStatus status s
  | .progResult10 cvb value => Sys2Proof.Machine.execProgResult10 cvb value s
  | .progResult14 cvb value => Sys2Proof.Machine.execProgResult14 cvb value s
  | .progResult15 cvb value => Sys2Proof.Machine.execProgResult15 cvb value s
  | .progResult16 cvb value => Sys2Proof.Machine.execProgResult16 cvb value s
  | .progResult17 cvb value => Sys2Proof.Machine.execProgResult17 cvb value s
  | .trackStatus state => Sys2Proof.Machine.execTrackStatus state s
  | .ifaceReply01 data => Sys2Proof.Machine.execIfaceReply01 data s
  | .ifaceReply02 data => Sys2Proof.Machine.execIfaceReply02 data s
  | .ifaceReply03 data => Sys2Proof.Machine.execIfaceReply03 data s
  | .accReport address flags => Sys2Proof.Machine.execAccReport address flags s
  -- whole frames
  | .frameOut c params => Sys2Proof.Machine.execFrameOut c params s
  | .frameIn kind code payload => Sys2Proof.Machine.execFrameIn kind code payload s

end Sys2Proof.Machine
end

