-- ==== Sys2Proof/Machine/Fetch.lean ====
section
/-! DEFINITION. What one offer of an agent does (00_scope.md R5, 44_system.md R211, 42_decoder.md R140), and how an instruction is
placed where the next step takes it (log entries 1, 10). -/

namespace Sys2Proof.Machine

/-- The effect of one offer: decoding, then the instruction's meaning. An illegal word takes IllegalCommand (R211, R212). A
receive offer with nothing pending is not enabled (R140), so nothing happens. -/
def perform (o : Offer) (s : State) : Result :=
  match o with
  | .command w =>
    match decodeCommand w with
    | .ok i => exec i s
    | .error _ => .next (illegalWord s)
  | .receive =>
    match s.pending with
    | [] => .next s
    | b :: _ => exec (.rxByte b) s
  | .read a => exec (.regRead a) s
  | .arrive b => .next (arrive [b] s)
  | .resetInput => .next (resetBlock s)

/-- The decoder's registers when it holds, READY, a frame it has received; RX_BUF above the payload keeps its old values. -/
def readyFrame (kind : FrameKind) (hdr : Byte) (payload : List Byte) (r : DecoderRegs) : DecoderRegs :=
  { state := .ready, kind := kind, pre := kind.preamble, hdr := hdr, idx := BitVec.ofNat 4 payload.length
    buf := Vector.ofFn fun i : Fin 15 => payload.getD i.val r.buf[i]
    xor := xorSum (hdr :: payload), chk := xorSum (hdr :: payload) }

/-- The encoder's registers when it has built a frame that is not yet sent; TX_BUF above the params keeps its old values. -/
def builtFrame (code : Nibble) (params : List Byte) (t : EncoderRegs) : EncoderRegs :=
  { state := .build, code := code, cnt := BitVec.ofNat 4 params.length
    buf := Vector.ofFn fun i : Fin 15 => params.getD i.val t.buf[i]
    xor := xorSum params }

/-- The decoder holds the frame, and the host issues UNPACK ctx. -/
def placeHeld (ctx : Bool) (kind : FrameKind) (hdr : Byte) (payload : List Byte) (s : State) : State :=
  { s with
    rx := readyFrame kind hdr payload s.rx
    offers := .command (commandWord 0x21 (if ctx then 0x01 else 0x00)) :: s.offers }

/-- The encoder has built the frame of these bytes, and the host issues TX_SEND. -/
def placeBuilt (bytes : List Byte) (s : State) : State :=
  match wholeFrame (decodeOutbound bytes) with
  | .ok (.frameOut c params) =>
    { s with tx := builtFrame c.nibble params s.tx, offers := .command (commandWord 0x12 0x00) :: s.offers }
  | _ => s

/-- The bytes are the transport's next, each with an offer to receive it. -/
def placeBytes (bytes : List Byte) (s : State) : State :=
  { s with pending := bytes ++ s.pending, offers := List.replicate bytes.length .receive ++ s.offers }

/-- Puts an instruction's bits where the very next step takes them: a command word, a read or a byte at its port; a payload shape
as the held frame with its UNPACK; an outbound frame as the built frame with its TX_SEND; an inbound frame as the transport's next
bytes. -/
def place (e : Encoding) (s : State) : State :=
  match e with
  | .command w => { s with offers := .command w :: s.offers }
  | .receive b => placeBytes [b] s
  | .read a => { s with offers := .read a :: s.offers }
  | .held ctx kind hdr payload => placeHeld ctx kind hdr payload s
  | .inbound bytes => placeBytes bytes s
  | .outbound bytes => placeBuilt bytes s

/-- Places the bits of an opcode-table row. Bits that decode to no row are a command word when there are 16 of them, and received
bytes otherwise. -/
def placeTableWord (nbits w : Nat) (s : State) : State :=
  match decodeTableWord nbits w with
  | some i => place (encode i) s
  | none =>
    if nbits = 16 then place (.command (BitVec.ofNat 16 w)) s else placeBytes (bytesOfNat (nbits / 8) w) s

end Sys2Proof.Machine
end

