-- ==== Sys2Proof/Machine/Step.lean ====
section
/-! DEFINITION. The step function (00_scope.md R5): the oldest offer is taken and performed. -/

namespace Sys2Proof.Machine

/-- One step. With no offer the block takes no step (R245), so the state stays. -/
def step (s : State) : Host.Outcome State Fault Refusal :=
  match s.offers with
  | [] => .next s
  | o :: later => perform o { s with offers := later }

/-- The state in which the next step runs the instruction of an opcode-table word (log entry 10). -/
def State.withFetchWord (s : State) (nbits w : Nat) : State := placeTableWord nbits w s

end Sys2Proof.Machine
end

