-- ==== Sys2Proof/Machine/Asm.lean ====
section
/-! DEFINITION. The assembler syntax of 30_encoding.md R83 and the pseudo-instructions of R84, as words and agents' offers. -/

namespace Sys2Proof.Machine

/-- One line of a program, R83. -/
inductive Line
  /-- a mnemonic and its operand, if any -/
  | command (mnemonic : String) (operand : Option Byte)
  /-- `rx b`, a receive step of the transport; DESIGN CHOICE (log entry 14): the line also gives the transport b -/
  | rx (b : Byte)
  /-- `rd addr -> value` -/
  | rd (addr : Byte)
  deriving DecidableEq, Repr

/-- R83: the word of a command line; `none` where the table has no such line. -/
def assemble (mnemonic : String) (operand : Option Byte) : Option CommandWord :=
  match operand with
  | none =>
    if mnemonic = "cks.clr" then some 0x0100
    else if mnemonic = "tx.send" then some 0x1200
    else if mnemonic = "rx.release" then some 0x2000
    else if mnemonic = "rst" then some 0xF000
    else none
  | some b =>
    if mnemonic = "cks.add" then some (commandWord 0x02 b)
    else if mnemonic = "cks.verify" then some (commandWord 0x03 b)
    else if mnemonic = "tx.start" then some (commandWord 0x10 b)
    else if mnemonic = "tx.param" then some (commandWord 0x11 b)
    else if mnemonic = "unpack" then (if b = 0x00 ∨ b = 0x01 then some (commandWord 0x21 b) else none)
    else if mnemonic = "bcd" then some (commandWord 0x30 b)
    else none

/-- The agents' steps a line stands for. DESIGN CHOICE (log entry 14), which R83 leaves open: `rx b` gives the transport b, after
the bytes it has, and then offers its first pending byte; `rd` is the read alone; a line that the table does not list is no step. -/
def Line.offers : Line → List Offer
  | .command mnemonic operand =>
    match assemble mnemonic operand with
    | some w => [.command w]
    | none => []
  | .rx b => [.arrive b, .receive]
  | .rd addr => [.read addr]

/-- R84: the pseudo-instructions. -/
inductive Pseudo
  /-- `cks.seq b0, ..., bk` -/
  | cksSeq (bytes : List Byte)
  /-- `cks.check b0, ..., bk, e` -/
  | cksCheck (bytes : List Byte) (e : Byte)
  /-- `tx.frame c, p0, ..., pk` -/
  | txFrame (c : CodeFamily) (params : List Byte)
  /-- `unpack.iface` -/
  | unpackIface
  deriving DecidableEq, Repr

/-- R84: their expansions. -/
def Pseudo.expand : Pseudo → List Instr
  | .cksSeq bytes => .cksClr :: bytes.map .cksAdd
  | .cksCheck bytes e => (.cksClr :: bytes.map .cksAdd) ++ [.cksVerify e]
  | .txFrame c params => (.txStart c :: params.map .txParam) ++ [.txSend]
  | .unpackIface => [.unpack true]

/-- The offers of instructions that are command words. -/
def commandOffers (is : List Instr) : List Offer :=
  is.filterMap fun i =>
    match encode i with
    | .command w => some (.command w)
    | _ => none

end Sys2Proof.Machine
end

