-- ==== Sys2Proof/Safety.lean ====
section
/-! DEFINITION. What every run keeps (the invariants the rules state of the registers and of the transmit stream), and what a safe
run is: one that never stops. -/

namespace Sys2Proof.Machine

/-! ### The decoder -/

/-- R145: in PAY fewer bytes have come than the header announced; R144, R145: in CHK, READY and CKERR all of them. -/
abbrev DecoderRegs.ProgressHolds (r : DecoderRegs) : Prop :=
  (r.state = .pay → r.idx.toNat < headerLength r.hdr) ∧
  (r.state = .chk ∨ r.state = .ready ∨ r.state = .ckerr → r.idx.toNat = headerLength r.hdr)

/-- R27: RX_XOR is the XOR of the header and the payload bytes received so far. -/
abbrev DecoderRegs.ChecksumHolds (r : DecoderRegs) : Prop :=
  r.state = .pay ∨ r.state = .chk ∨ r.state = .ready ∨ r.state = .ckerr →
    r.xor = xorSum (r.hdr :: r.buf.toList.take r.idx.toNat)

/-- R146: READY is a frame whose check byte agreed, CKERR one whose check byte did not. -/
abbrev DecoderRegs.VerdictHolds (r : DecoderRegs) : Prop :=
  (r.state = .ready → r.chk = r.xor) ∧ (r.state = .ckerr → r.chk ≠ r.xor)

/-- R143: after the preamble RX_PRE is the marker of RX_KIND; in DESYNC it is neither marker. -/
abbrev DecoderRegs.PreambleHolds (r : DecoderRegs) : Prop :=
  (r.state = .hdr ∨ r.state = .pay ∨ r.state = .chk ∨ r.state = .ready ∨ r.state = .ckerr → r.pre = r.kind.preamble) ∧
  (r.state = .desync → r.pre ≠ 0xFFFE ∧ r.pre ≠ 0xFFFD)

/-- What every run keeps of the decoder. -/
abbrev DecoderRegs.Inv (r : DecoderRegs) : Prop :=
  r.ProgressHolds ∧ r.ChecksumHolds ∧ r.VerdictHolds ∧ r.PreambleHolds

/-! ### The encoder -/

/-- R33: TX_XOR is the XOR of the buffered params; R121: TX_CODE is in CODESET. -/
abbrev EncoderRegs.Inv (t : EncoderRegs) : Prop :=
  t.xor = xorSum t.params ∧ (CodeFamily.ofNibble t.code).isSome

/-- R62, R124: the transmit stream is whole frames, one after the other. -/
def WholeFrames (sent : List Byte) : Prop :=
  ∃ frames : List (CodeFamily × List Byte),
    (∀ f ∈ frames, f.2.length ≤ 15) ∧ sent = (frames.map fun f => outboundBytes f.1.nibble f.2).flatten

/-! ### The results -/

/-- R181: the fields of the variants that RES_KIND does not name are 0; with NONE every field is. -/
abbrev ResultRegs.OtherFieldsZero (r : ResultRegs) : Prop :=
  (r.kind = .none → r = .reset) ∧
  (r.kind ≠ .cmdResult → r.stkind = false ∧ r.status = 0x00 ∧ r.plen = 0 ∧ r.pay = zeroBuffer) ∧
  (r.kind ≠ .progResult → r.cv = 0 ∧ r.value = 0x00) ∧
  (r.kind ≠ .accState →
    r.addr = 0x00 ∧ r.undet = false ∧ r.akind = .outputNoFeedback ∧ r.nib = false ∧ r.statev = 0x0) ∧
  (r.kind ≠ .trackStatus → r.track = .off)

/-- R39, R40, R42, R43: the ranges of the fields. -/
abbrev ResultRegs.RangesHold (r : ResultRegs) : Prop :=
  loNibble r.code = 0x0 ∧ (r.stkind = false → r.status = 0x00) ∧ r.cv.toNat ≤ 1024 ∧
  (∀ i : Fin 15, r.plen.toNat ≤ i.val → r.pay[i] = 0x00)

/-- What every run keeps of the result registers. -/
abbrev ResultRegs.Inv (r : ResultRegs) : Prop := r.OtherFieldsZero ∧ r.RangesHold

/-! ### The machine -/

/-- What every run keeps of the registers. -/
abbrev State.Inv (s : State) : Prop := s.rx.Inv ∧ s.tx.Inv ∧ s.res.Inv

/-- A safe state: no run from it stops. -/
def Safe (s : State) : Prop := ∀ n, ∃ t, Sys2Proof.core.run n s = .next t

/-- `n` receive offers, one after the other, before the offers already made. -/
def receives (n : Nat) (s : State) : Result :=
  Sys2Proof.core.run n { s with offers := List.replicate n .receive ++ s.offers }

/-- The offers `os`, one after the other, before the offers already made. -/
def runs (os : List Offer) (s : State) : Result :=
  Sys2Proof.core.run os.length { s with offers := os ++ s.offers }

/-! ### Kinds of offers -/

/-- A command word. -/
def Offer.isCommand : Offer → Bool
  | .command _ => true
  | .receive => false
  | .read _ => false
  | .arrive _ => false
  | .resetInput => false

/-- The reset input, or the word of RST. -/
def Offer.resets (o : Offer) : Bool := o == .resetInput || o == .command 0xF000

/-- A legal word of an encoder command (R121 to R123). -/
def Offer.isEncoderCommand : Offer → Bool
  | .command w =>
    match decodeCommand w with
    | .ok (.txStart _) => true
    | .ok (.txParam _) => true
    | .ok .txSend => true
    | _ => false
  | _ => false

/-- A byte the transport is given. -/
def Offer.arriving : Offer → Option Byte
  | .arrive b => some b
  | .receive => none
  | .command _ => none
  | .read _ => none
  | .resetInput => none

end Sys2Proof.Machine
end

