-- ==== Sys2Proof/Certificates/Slice0/Obligations.lean ====
section
/-! DEFINITION. The statements for the provers, each from a numbered rule of the spec or from several sections of it.
"Unchanged" is said through the registers of a unit, or through the read port, which shows every register (R47, R56). -/

open Sys2Proof Sys2Proof.Machine

/-! ## Encodings -/

/-- Decoding the encoding of a well-formed instruction gives it back, for every row of the opcode table. -/
def Obligations.DecodeAfterEncodeGivesTheInstruction : Prop :=
  ∀ i : Instr, i.WellFormed → decode (encode i) = .ok i

/-- R79: the opcode map, word by word: which words are commands, which command each is, and with which operand. Every other
word is illegal. -/
def Obligations.CommandDecoderIsTheOpcodeMap : Prop :=
  ∀ (w : CommandWord) (i : Instr), decodeCommand w = .ok i ↔
    (i = .cksClr ∧ w = 0x0100) ∨
    (∃ b : Byte, i = .cksAdd b ∧ w = 0x02#8 ++ b) ∨
    (∃ e : Byte, i = .cksVerify e ∧ w = 0x03#8 ++ e) ∨
    (i = .txStart .interfaceStatus ∧ w = 0x1000) ∨ (i = .txStart .programming ∧ w = 0x1020) ∨
    (i = .txStart .accessoryReport ∧ w = 0x1040) ∨ (i = .txStart .accessoryControl ∧ w = 0x1050) ∨
    (i = .txStart .status ∧ w = 0x1060) ∨ (i = .txStart .allLocos ∧ w = 0x1080) ∨
    (i = .txStart .loco ∧ w = 0x10E0) ∨ (i = .txStart .interface ∧ w = 0x10F0) ∨
    (∃ b : Byte, i = .txParam b ∧ w = 0x11#8 ++ b) ∨
    (i = .txSend ∧ w = 0x1200) ∨
    (i = .rxRelease ∧ w = 0x2000) ∨
    (i = .unpack false ∧ w = 0x2100) ∨ (i = .unpack true ∧ w = 0x2101) ∨
    (∃ b : Byte, i = .bcd b ∧ w = 0x30#8 ++ b) ∨
    (i = .rst ∧ w = 0xF000)

/-- Whatever a decoder accepts, on any interface, is a well-formed instruction; and of a held frame the header and every byte of
the payload can be read back from the instruction it decodes to. -/
def Obligations.DecodingIsWellFormedAndDropsNoByte : Prop :=
  (∀ (e : Encoding) (i : Instr), decode e = .ok i → i.WellFormed) ∧
  (∀ (ctx : Bool) (kind : FrameKind) (hdr : Byte) (payload : List Byte) (i : Instr),
    decodeHeld ctx kind hdr payload = .ok i → ∃ ctx' kind', encode i = .held ctx' kind' hdr payload)

/-- Words of the spec's own examples (R83, 95_test_vectors.md) decode to the instructions they stand for, and its illegal words
(E10, E11, S1, S4) to none. -/
def Obligations.ExampleWordsDecode : Prop :=
  decode (.command 0x0263) = .ok (.cksAdd 0x63) ∧ decode (.command 0x03BE) = .ok (.cksVerify 0xBE) ∧
  decode (.command 0x1020) = .ok (.txStart .programming) ∧ decode (.command 0x2101) = .ok (.unpack true) ∧
  decode (.held false .direct 0x63 [0x10, 0x05, 0xC8]) = .ok (.progResult10 0x05 0xC8) ∧
  decode (.held false .broadcast 0x61 [0x01]) = .ok (.trackStatus 0x01) ∧
  decode (.inbound [0xFF, 0xFE, 0x22, 0x15, 0x01, 0x36]) = .ok (.frameIn .direct 0x2 [0x15, 0x01]) ∧
  decode (.outbound [0xFF, 0xFE, 0x22, 0x15, 0x01, 0x14]) = .ok (.frameOut .programming [0x15, 0x01]) ∧
  decode (.command 0x1021) = .error .codeNotInCodeset ∧ decode (.command 0x1010) = .error .codeNotInCodeset ∧
  decode (.command 0x0000) = .error .unlistedOpcode ∧ decode (.command 0x0101) = .error .reservedOperand

/-! ## The checksum unit -/

/-- R105: the laws (a) to (e) of the checksum function. -/
def Obligations.ChecksumLaws : Prop :=
  (∀ s t : List Byte, xorSum (s ++ t) = xorSum s ^^^ xorSum t) ∧
  (∀ s t : List Byte, s.Perm t → xorSum s = xorSum t) ∧
  (∀ s : List Byte, xorSum (s ++ [xorSum s]) = 0x00) ∧
  (∀ (s : List Byte) (j : Nat), (xorSum s).getLsbD j = decide ((s.countP fun b => b.getLsbD j) % 2 = 1)) ∧
  (∀ (s t : List Byte) (b c : Byte), b ≠ c → xorSum (s ++ b :: t) ≠ xorSum (s ++ c :: t)) ∧
  (∀ (s t u : List Byte) (b c m : Byte),
    xorSum (s ++ (b ^^^ m) :: t ++ (c ^^^ m) :: u) = xorSum (s ++ b :: t ++ c :: u))

/-- R101: CKS_CLR, its word and its refusal of a non-zero IMM, and all it does. -/
def Obligations.CksClrClearsTheAccumulator : Prop :=
  (∀ (imm : Byte) (s : State), perform (.command (0x01#8 ++ imm)) s =
    if imm = 0x00 then exec .cksClr s else .next { s with opst := .illegalCommand }) ∧
  ∀ s : State, exec .cksClr s = .next { s with cks := { s.cks with acc := 0x00 }, opst := .ok }

/-- R102: CKS_ADD. -/
def Obligations.CksAddFoldsTheByteIn : Prop :=
  ∀ b : Byte, decodeCommand (0x02#8 ++ b) = .ok (.cksAdd b) ∧
    ∀ s : State, exec (.cksAdd b) s = .next { s with cks := { s.cks with acc := s.cks.acc ^^^ b }, opst := .ok }

/-- R103: CKS_VERIFY; a mismatch is a result, not an error. -/
def Obligations.CksVerifyComparesTheAccumulator : Prop :=
  ∀ e : Byte, decodeCommand (0x03#8 ++ e) = .ok (.cksVerify e) ∧
    ∀ s : State, ∃ t, exec (.cksVerify e) s = .next t ∧ (t.cks.eq = true ↔ s.cks.acc = e) ∧
      t = { s with cks := { s.cks with eq := t.cks.eq }, opst := .ok }

/-- R104: CKS_CLR and a CKS_ADD for each byte of a sequence leave its checksum in CKS_ACC, and CKS_VERIFY then says whether a
byte is that checksum, whatever receive steps, reads and arriving bytes come in between. -/
def Obligations.ChecksumSequenceComputesTheChecksum : Prop :=
  ∀ (s : State) (bytes : List Byte) (os : List Offer), s.rx.Inv → Offer.resetInput ∉ os →
    (os.filter Offer.isCommand = .command 0x0100 :: bytes.map (fun b => .command (0x02#8 ++ b)) →
      ∃ t, runs os s = .next t ∧ t.cks.acc = xorSum bytes) ∧
    (∀ e : Byte,
      os.filter Offer.isCommand =
        .command 0x0100 :: bytes.map (fun b => .command (0x02#8 ++ b)) ++ [.command (0x03#8 ++ e)] →
      ∃ t, runs os s = .next t ∧ t.cks.acc = xorSum bytes ∧ (t.cks.eq = true ↔ e = xorSum bytes))

/-! ## The frame encoder -/

/-- R121: TX_START: its words, and all it does; a frame under construction is dropped without being emitted. -/
def Obligations.TxStartBeginsAFrame : Prop :=
  (∀ (imm : Byte) (c : CodeFamily),
    decodeCommand (0x10#8 ++ imm) = .ok (.txStart c) ↔ loNibble imm = 0 ∧ hiNibble imm = c.nibble) ∧
  (∀ imm : Byte, (loNibble imm ≠ 0 ∨ hiNibble imm ∉ [0x0#4, 0x2, 0x4, 0x5, 0x6, 0x8, 0xE, 0xF]) →
    ∀ s : State, perform (.command (0x10#8 ++ imm)) s = .next { s with opst := .illegalCommand }) ∧
  (∀ (c : CodeFamily) (s : State),
    exec (.txStart c) s =
      .next { s with tx := { s.tx with state := .build, code := c.nibble, cnt := 0, xor := 0x00 }, opst := .ok })

/-- R122: TX_PARAM: TxNotStarted while IDLE; EncodingConstraintError, which drops the frame, with 15 params buffered; otherwise
the param is appended. Every register not named is unchanged. -/
def Obligations.TxParamAppendsOrRejects : Prop :=
  ∀ b : Byte, decodeCommand (0x11#8 ++ b) = .ok (.txParam b) ∧
    ∀ s : State,
      (s.tx.state = .idle → exec (.txParam b) s = .next { s with opst := .txNotStarted }) ∧
      (s.tx.state = .build → s.tx.cnt = 15 →
        exec (.txParam b) s =
          .next { s with tx := { s.tx with state := .idle }, opst := .encodingConstraintError }) ∧
      (s.tx.state = .build → s.tx.cnt ≠ 15 →
        ∃ t, exec (.txParam b) s = .next t ∧ t.opst = .ok ∧ t.tx.state = .build ∧ t.tx.code = s.tx.code ∧
          t.tx.cnt.toNat = s.tx.cnt.toNat + 1 ∧ t.tx.xor = s.tx.xor ^^^ b ∧
          (∀ i : Fin 15, t.tx.buf[i] = if i.val = s.tx.cnt.toNat then b else s.tx.buf[i]) ∧
          t = { s with tx := t.tx, opst := .ok })

/-- R123: TX_SEND: its word and refusal of a non-zero IMM, TxNotStarted while IDLE, and the emission of the built frame, which
leaves TX_CODE, TX_CNT, TX_BUF and TX_XOR as they were. -/
def Obligations.TxSendEmitsTheBuiltFrame : Prop :=
  (∀ (imm : Byte) (s : State), perform (.command (0x12#8 ++ imm)) s =
    if imm = 0x00 then exec .txSend s else .next { s with opst := .illegalCommand }) ∧
  ∀ s : State,
    (s.tx.state = .idle → exec .txSend s = .next { s with opst := .txNotStarted }) ∧
    (s.tx.state = .build →
      exec .txSend s =
        .next { s with
          tx := { s.tx with state := .idle }
          opst := .ok
          sent := s.sent ++ ([0xFF, 0xFE, s.tx.code ++ s.tx.cnt] ++ s.tx.buf.toList.take s.tx.cnt.toNat ++ [s.tx.xor]) })

/-- R75, R120, R123 (log entry 7): FRAME_OUT appends its bytes while a frame is under construction, and raises TxNotStarted while
none is; TX_SEND does exactly that with the code and the params the encoder holds. -/
def Obligations.FrameOutIsWhatTxSendEmits : Prop :=
  (∀ (c : CodeFamily) (params : List Byte) (s : State), params.length ≤ 15 →
    (s.tx.state = .build →
      exec (.frameOut c params) s =
        .next { s with
          tx := { s.tx with state := .idle }
          opst := .ok
          sent := s.sent ++ [0xFF, 0xFE, c.nibble ++ BitVec.ofNat 4 params.length] ++ params ++ [xorSum params] }) ∧
    (s.tx.state = .idle → exec (.frameOut c params) s = .next { s with opst := .txNotStarted })) ∧
  (∀ s : State, s.tx.Inv → ∃ c : CodeFamily, c.nibble = s.tx.code ∧
    exec .txSend s = exec (.frameOut c s.tx.params) s)

/-- R125: TX_START, a TX_PARAM for each param and TX_SEND, with no other encoder command and no reset in between. With at most 15
params the frame encode(C, p) is emitted by the TX_SEND, and every one of the commands answers OK; with more, the 16th TX_PARAM
raises EncodingConstraintError, every later TX_PARAM and the TX_SEND raise TxNotStarted, and nothing is emitted. -/
def Obligations.TxFrameEmitsTheEncodedFrame : Prop :=
  ∀ (s : State) (c : CodeFamily) (params : List Byte) (os : List Offer), s.rx.Inv →
    (∀ o ∈ os, o.resets = false) →
    os.filter Offer.isEncoderCommand =
      .command (0x10#8 ++ (c.nibble ++ 0x0#4)) :: params.map (fun p => .command (0x11#8 ++ p)) ++ [.command 0x1200] →
    (∃ t, runs os s = .next t ∧ t.tx.state = .idle ∧
      t.sent = s.sent ++
        (if params.length ≤ 15 then
          [0xFF, 0xFE, c.nibble ++ BitVec.ofNat 4 params.length] ++ params ++ [xorSum params] else [])) ∧
    (∀ (before later : List Offer) (o : Offer), os = before ++ o :: later → o.isEncoderCommand = true →
      ∃ t, runs (before ++ [o]) s = .next t ∧
        t.opst =
          (if params.length ≤ 15 ∨ (before.filter Offer.isEncoderCommand).length ≤ 15 then .ok
           else if (before.filter Offer.isEncoderCommand).length = 16 then .encodingConstraintError
           else .txNotStarted))

/-- R62: the transmit stream is whole frames, contiguous and never interleaved: every step keeps that. -/
def Obligations.TransmitStreamStaysWholeFrames : Prop :=
  ∀ s t : State, s.tx.Inv → WholeFrames s.sent → step s = .next t → WholeFrames t.sent ∧ t.tx.Inv

/-- R59, R123, R262: a step emits only when it performs TX_SEND with a frame under construction, and then exactly that frame; no
step removes or alters a byte already emitted. -/
def Obligations.OnlyTxSendEmits : Prop :=
  ∀ s t : State, step s = .next t →
    t.sent = s.sent ∨
    (s.offers.head? = some (.command 0x1200) ∧ s.tx.state = .build ∧
      t.sent = s.sent ++ ([0xFF, 0xFE, s.tx.code ++ s.tx.cnt] ++ s.tx.params ++ [s.tx.xor]))

/-- R126: an emitted frame that comes back unchanged fails the decoder's check unless its header is 0x00, that is code 0x0 with no
params; with the check byte of the inbound convention it decodes to its code and its params. -/
def Obligations.LoopbackFailsUnlessTheHeaderIsZero : Prop :=
  ∀ (s : State) (c : CodeFamily) (params more : List Byte), params.length ≤ 15 → s.rx.state = .pre0 →
    (s.pending = outboundBytes c.nibble params ++ more →
      ∃ t, receives (params.length + 4) s = .next t ∧
        t.rx.state = (if c = .interfaceStatus ∧ params = [] then .ready else .ckerr)) ∧
    (s.pending =
        (outboundBytes c.nibble params).dropLast ++ [xorSum (headerByte c.nibble params :: params)] ++ more →
      ∃ t, receives (params.length + 4) s = .next t ∧ t.rx.state = .ready ∧ hiNibble t.rx.hdr = c.nibble ∧
        t.rx.payload = params ∧ t.pending = more)

/-! ## The frame decoder -/

/-- R142, R143: the two preamble bytes, the first one high; the classification, or DESYNC with RX_KIND unchanged. -/
def Obligations.ReceivingThePreamble : Prop :=
  ∀ (s : State) (b : Byte) (more : List Byte), s.pending = b :: more →
    (s.rx.state = .pre0 →
      exec (.rxByte b) s =
        .next { s with
          rx := { s.rx with pre := b ++ s.rx.pre.extractLsb' 0 8, state := .pre1 }, pending := more }) ∧
    (s.rx.state = .pre1 →
      (s.rx.pre.extractLsb' 8 8 ++ b = 0xFFFE#16 →
        exec (.rxByte b) s =
          .next { s with rx := { s.rx with pre := 0xFFFE, kind := .direct, state := .hdr }, pending := more }) ∧
      (s.rx.pre.extractLsb' 8 8 ++ b = 0xFFFD#16 →
        exec (.rxByte b) s =
          .next { s with rx := { s.rx with pre := 0xFFFD, kind := .broadcast, state := .hdr }, pending := more }) ∧
      (s.rx.pre.extractLsb' 8 8 ++ b ≠ 0xFFFE#16 → s.rx.pre.extractLsb' 8 8 ++ b ≠ 0xFFFD#16 →
        exec (.rxByte b) s =
          .next { s with
            rx := { s.rx with pre := s.rx.pre.extractLsb' 8 8 ++ b, state := .desync }, pending := more }))

/-- R144, R146: the header byte starts the inbound checksum and the payload count, and length 0 goes straight to CHK; the check byte
is compared with the running checksum. -/
def Obligations.ReceivingTheHeaderAndTheCheckByte : Prop :=
  ∀ (s : State) (b : Byte) (more : List Byte), s.pending = b :: more →
    (s.rx.state = .hdr →
      exec (.rxByte b) s =
        .next { s with
          rx := { s.rx with hdr := b, xor := b, idx := 0, state := if b.toNat % 16 = 0 then .chk else .pay }
          pending := more }) ∧
    (s.rx.state = .chk →
      exec (.rxByte b) s =
        .next { s with
          rx := { s.rx with chk := b, state := if b = s.rx.xor then .ready else .ckerr }, pending := more })

/-- R145: a payload byte, while fewer than RX_HDR[3:0] have come; the last one leads to CHK. -/
def Obligations.ReceivingAPayloadByte : Prop :=
  ∀ (s : State) (b : Byte) (more : List Byte), s.pending = b :: more → s.rx.state = .pay →
    s.rx.idx.toNat < s.rx.hdr.toNat % 16 →
    ∃ t, exec (.rxByte b) s = .next t ∧
      (∀ i : Fin 15, t.rx.buf[i] = if i.val = s.rx.idx.toNat then b else s.rx.buf[i]) ∧
      t.rx.xor = s.rx.xor ^^^ b ∧ t.rx.idx.toNat = s.rx.idx.toNat + 1 ∧
      t.rx.state = (if s.rx.idx.toNat + 1 = s.rx.hdr.toNat % 16 then .chk else .pay) ∧
      t = { s with
        rx := { s.rx with buf := t.rx.buf, xor := t.rx.xor, idx := t.rx.idx, state := t.rx.state }, pending := more }

/-- R141: the decoder accepts exactly in PRE0, PRE1, HDR, PAY and CHK: there, with RX_IDX inside RX_BUF, a pending byte is taken;
in READY, CKERR and DESYNC none is, and the pending bytes stay, in order. -/
def Obligations.BytesAreTakenOnlyWhileAccepting : Prop :=
  ∀ (s : State) (b : Byte) (more : List Byte), s.pending = b :: more →
    (s.rx.state ∈ [.pre0, .pre1, .hdr, .pay, .chk] → (s.rx.state = .pay → s.rx.idx ≠ 15) →
      ∃ t, exec (.rxByte b) s = .next t ∧ t.pending = more) ∧
    (s.rx.state ∈ [.ready, .ckerr, .desync] → exec (.rxByte b) s = .next s)

/-- R147: RX_RELEASE: its word and refusal of a non-zero IMM; a held frame is released, everything else staying; NoFrame when no
frame is held, DESYNC among those cases. -/
def Obligations.RxReleaseFreesAHeldFrame : Prop :=
  (∀ (imm : Byte) (s : State), perform (.command (0x20#8 ++ imm)) s =
    if imm = 0x00 then exec .rxRelease s else .next { s with opst := .illegalCommand }) ∧
  ∀ s : State,
    (s.rx.state ∈ [.ready, .ckerr] →
      exec .rxRelease s = .next { s with rx := { s.rx with state := .pre0 }, opst := .ok }) ∧
    (s.rx.state ∉ [.ready, .ckerr] → exec .rxRelease s = .next { s with opst := .noFrame })

/-- R148: the receive steps of a frame that is pending at PRE0: a recognized preamble gives READY or CKERR after len(d) + 4 steps,
with the fields of the frame; any other preamble gives DESYNC after 2 steps, the rest still pending. -/
def Obligations.ReceiveStepsDecodeAFrame : Prop :=
  ∀ (s : State) (q0 q1 h k : Byte) (d more : List Byte), s.rx.state = .pre0 → d.length = h.toNat % 16 →
    s.pending = [q0, q1, h] ++ d ++ [k] ++ more →
    ((q0 ++ q1 = 0xFFFE#16 ∨ q0 ++ q1 = 0xFFFD#16) →
      ∃ t, receives (d.length + 4) s = .next t ∧ t.pending = more ∧ t.rx.pre = q0 ++ q1 ∧
        (t.rx.kind = .broadcast ↔ q0 ++ q1 = 0xFFFD#16) ∧ t.rx.hdr = h ∧ t.rx.payload = d ∧
        t.rx.state = (if k = xorSum (h :: d) then .ready else .ckerr)) ∧
    (q0 ++ q1 ≠ 0xFFFE#16 → q0 ++ q1 ≠ 0xFFFD#16 →
      ∃ t, receives 2 s = .next t ∧ t.rx.state = .desync ∧ t.pending = h :: d ++ [k] ++ more)

/-- R70, R148 (log entry 7): FRAME_IN, the receive steps of a whole frame, completes from PRE0 with the frame held READY; and where
its bytes are the transport's next, the machine's own receive steps do exactly that. -/
def Obligations.FrameInIsReceivedByReceiveSteps : Prop :=
  ∀ (s : State) (kind : FrameKind) (code : Nibble) (payload more : List Byte), payload.length ≤ 15 →
    s.rx.state = .pre0 →
    s.pending = inboundBytes kind (headerByte code payload) payload ++ more →
    ∃ t, exec (.frameIn kind code payload) s = .next t ∧ receives (payload.length + 4) s = .next t ∧
      t.rx.state = .ready ∧ t.rx.kind = kind ∧ t.rx.hdr = code ++ BitVec.ofNat 4 payload.length ∧
      t.rx.payload = payload ∧ t.pending = more ∧ t.opst = s.opst ∧ t.tx = s.tx ∧ t.cks = s.cks ∧ t.res = s.res ∧
      t.sent = s.sent

/-- R149: after a frame whose check byte is wrong and whose length nibble is intact, RX_RELEASE makes the next two bytes the next
preamble, and a right frame that follows is READY with its own fields. -/
def Obligations.ReleaseResynchronizesOnTheNextFrame : Prop :=
  ∀ (s : State) (kind kind' : FrameKind) (h h' k : Byte) (d d' more : List Byte), s.rx.state = .pre0 →
    d.length = headerLength h → d'.length = headerLength h' → k ≠ xorSum (h :: d) →
    s.pending =
      [hiByte kind.preamble, loByte kind.preamble, h] ++ d ++ [k] ++ inboundBytes kind' h' d' ++ more →
    ∃ t u v, receives (d.length + 4) s = .next t ∧ t.rx.state = .ckerr ∧
      exec .rxRelease t = .next u ∧ u.opst = .ok ∧ u.pending = inboundBytes kind' h' d' ++ more ∧
      receives (d'.length + 4) u = .next v ∧ v.rx.state = .ready ∧ v.rx.kind = kind' ∧ v.rx.hdr = h' ∧
      v.rx.payload = d' ∧ v.pending = more

/-- R150: in DESYNC no byte is taken, RX_RELEASE and UNPACK raise NoFrame, and only RST or the reset input leaves the state. -/
def Obligations.DesyncIsAbsorbing : Prop :=
  ∀ s : State, s.rx.state = .desync →
    (∀ t, step s = .next t → s.offers.head?.all (fun o => !o.resets) →
      t.rx = s.rx ∧ ∃ arrived, t.pending = s.pending ++ arrived) ∧
    (∀ ctx : Bool, ∃ t, exec (.unpack ctx) s = .next t ∧ t.opst = .noFrame) ∧
    (∃ t, exec .rxRelease s = .next t ∧ t.opst = .noFrame) ∧
    (∃ t, exec .rst s = .next t ∧ t.rx.state = .pre0) ∧
    (∃ t, perform .resetInput s = .next t ∧ t.rx.state = .pre0)

/-- R141, R276: while a frame is held, only RX_RELEASE, RST and the reset input change the decoder, and no step takes a byte. -/
def Obligations.HeldFrameStaysUntilReleased : Prop :=
  ∀ s t : State, s.rx.state = .ready ∨ s.rx.state = .ckerr → step s = .next t →
    s.offers.head?.all (fun o => !o.resets && o != .command 0x2000) →
    t.rx = s.rx ∧ ∃ arrived, t.pending = s.pending ++ arrived

/-- R61: a frame, or any bytes, split across any number of deliveries with receive steps between them, leave the machine as if
they had all come at once. -/
def Obligations.SplitDeliveriesDecodeAlike : Prop :=
  ∀ (s : State) (os : List Offer), s.rx.Inv → s.offers = [] →
    (∀ o ∈ os, o = .receive ∨ ∃ b, o = .arrive b) →
    ∃ t u, runs os s = .next t ∧ receives t.pending.length t = .next u ∧
      receives (s.pending ++ os.filterMap Offer.arriving).length
        { s with pending := s.pending ++ os.filterMap Offer.arriving } = .next u

/-- R60: the pending bytes are taken strictly in arrival order, each once, none skipped, and none while the decoder does not
accept; only an arriving byte is added, at the end. -/
def Obligations.PendingBytesAreTakenInOrder : Prop :=
  ∀ s t : State, step s = .next t →
    t.pending = s.pending ∨
    (∃ b, s.offers.head? = some (.arrive b) ∧ t.pending = s.pending ++ [b]) ∨
    (∃ b, s.offers.head? = some .receive ∧ s.rx.state ∉ [.ready, .ckerr, .desync] ∧ s.pending = b :: t.pending)

/-! ## The payload unpacker -/

/-- R170, R171, R236: UNPACK's word and its reserved bits, then its checks in order: a CKERR frame is InvalidFrame, no held frame
NoFrame; both clear every result register and change nothing else. -/
def Obligations.UnpackChecksComeInOrder : Prop :=
  (∀ (imm : Byte) (s : State), perform (.command (0x21#8 ++ imm)) s =
    if imm = 0x00 then exec (.unpack false) s
    else if imm = 0x01 then exec (.unpack true) s
    else .next { s with opst := .illegalCommand }) ∧
  ∀ (ctx : Bool) (s : State),
    (s.rx.state = .ckerr → exec (.unpack ctx) s = .next { s with res := .reset, opst := .invalidFrame }) ∧
    (s.rx.state ≠ .ckerr → s.rx.state ≠ .ready →
      exec (.unpack ctx) s = .next { s with res := .reset, opst := .noFrame })

/-- R182: exactly which held frames are UnknownMessageError, and what the error leaves. -/
def Obligations.UnknownMessageIsExactlyTheTablesRest : Prop :=
  ∀ (ctx : Bool) (s : State), s.rx.state = .ready →
    ((hiNibble s.rx.hdr ∉ [0x0#4, 0x4, 0x6, 0xF] ∨
      (hiNibble s.rx.hdr = 0x0 ∧ ctx = false ∧ headerLength s.rx.hdr ≠ 1) ∨
      (hiNibble s.rx.hdr = 0x6 ∧ ¬ (s.rx.kind = .direct ∧ headerLength s.rx.hdr = 3) ∧
        ¬ (s.rx.kind = .broadcast ∧ headerLength s.rx.hdr = 1)) ∨
      (hiNibble s.rx.hdr = 0x6 ∧ s.rx.kind = .direct ∧ headerLength s.rx.hdr = 3 ∧
        s.rx.buf[0] ∉ [0x10#8, 0x14, 0x15, 0x16, 0x17]) ∨
      (hiNibble s.rx.hdr = 0x6 ∧ s.rx.kind = .broadcast ∧ headerLength s.rx.hdr = 1 ∧
        s.rx.buf[0] ∉ [s.cfg.trackStateOff, 0x01#8, s.cfg.trackStateProg]) ∨
      (hiNibble s.rx.hdr = 0xF ∧ (headerLength s.rx.hdr = 0 ∨ s.rx.buf[0] ∉ [0x01#8, 0x02, 0x03])) ∨
      (hiNibble s.rx.hdr = 0x4 ∧ headerLength s.rx.hdr ≠ 2)) ↔
    exec (.unpack ctx) s = .next { s with res := .reset, opst := .unknownMessageError })

/-- R76, R170, R172 (log entry 6): UNPACK of a READY frame is the meaning of the payload shape the frame decodes to, and it ends
with OK and a result, unless the shape is a track status whose byte names no state. -/
def Obligations.UnpackRunsTheHeldShape : Prop :=
  ∀ (ctx : Bool) (s : State) (i : Instr), s.rx.state = .ready →
    decodeHeld ctx s.rx.kind s.rx.hdr s.rx.payload = .ok i →
    ∃ t, exec (.unpack ctx) s = .next t ∧ exec i s = .next t ∧ t.rx = s.rx ∧
      ((∀ b, i = .trackStatus b → b ∈ [s.cfg.trackStateOff, 0x01#8, s.cfg.trackStateProg]) →
        t.opst = .ok ∧ t.res.kind ≠ .none ∧ t.res.code = s.rx.hdr &&& 0xF0#8)

/-- R173, R174 (log entry 6): interface-status. With ctx = 1 CommandResult OK with the whole payload, whatever length and preamble; with ctx = 0
the one payload byte as raw status and as payload, and UnknownMessageError for any other length. -/
def Obligations.InterfaceStatusResults : Prop :=
  ∀ s : State, s.rx.state = .ready →
    (∀ payload : List Byte, payload.length ≤ 15 →
      ∃ t, exec (.ifstatusReply payload) s = .next t ∧ t.opst = .ok ∧ t.res.kind = .cmdResult ∧ t.res.stkind = false ∧
        t.res.status = 0x00 ∧ t.res.plen.toNat = payload.length ∧
        (∀ i : Fin 15, t.res.pay[i] = payload.getD i.val 0x00) ∧ t.res.code = s.rx.hdr &&& 0xF0#8 ∧
        (t.res.bcst = true ↔ s.rx.kind = .broadcast) ∧ t = { s with res := t.res, opst := .ok }) ∧
    (∀ status : Byte,
      ∃ t, exec (.ifstatusStatus status) s = .next t ∧ t.opst = .ok ∧ t.res.kind = .cmdResult ∧ t.res.stkind = true ∧
        t.res.status = status ∧ t.res.plen = 1 ∧
        (∀ i : Fin 15, t.res.pay[i] = if i.val = 0 then status else 0x00) ∧ t.res.code = s.rx.hdr &&& 0xF0#8 ∧
        (t.res.bcst = true ↔ s.rx.kind = .broadcast) ∧ t = { s with res := t.res, opst := .ok }) ∧
    (hiNibble s.rx.hdr = 0x0 →
      s.rx.hdr &&& 0xF0#8 = 0x00 ∧
      exec (.unpack true) s = exec (.ifstatusReply s.rx.payload) s ∧
      (headerLength s.rx.hdr = 1 → exec (.unpack false) s = exec (.ifstatusStatus s.rx.buf[0]) s) ∧
      (headerLength s.rx.hdr ≠ 1 →
        exec (.unpack false) s = .next { s with res := .reset, opst := .unknownMessageError }))

/-- R177: CV number assembly, subcode by subcode, as numbers; no overflow; any other subcode is UNKNOWN. -/
def Obligations.CvNumberAssembly : Prop :=
  ∀ sub cvb : Byte,
    (sub = 0x10 → (cvnum sub cvb).map (·.toNat) = some cvb.toNat) ∧
    (sub = 0x14 → (cvnum sub cvb).map (·.toNat) = some (if cvb.toNat = 0 then 1024 else cvb.toNat)) ∧
    (sub = 0x15 → (cvnum sub cvb).map (·.toNat) = some (cvb.toNat + 256)) ∧
    (sub = 0x16 → (cvnum sub cvb).map (·.toNat) = some (cvb.toNat + 512)) ∧
    (sub = 0x17 → (cvnum sub cvb).map (·.toNat) = some (cvb.toNat + 768)) ∧
    (sub ∉ [0x10#8, 0x14, 0x15, 0x16, 0x17] → cvnum sub cvb = none)

/-- R175 to R177, R181 (log entry 6): each of the five programming-result shapes of a READY frame. In a direct frame: RES_CV as a number,
RES_VALUE, the tag and the code, every other result field 0 and nothing else changed; in a broadcast one UnknownMessageError. -/
def Obligations.ProgrammingResultGivesCvAndValue : Prop :=
  ∀ (s : State) (cvb value : Byte), s.rx.state = .ready →
    ∀ p ∈ [(Instr.progResult10 cvb value, cvb.toNat),
        (Instr.progResult14 cvb value, if cvb.toNat = 0 then 1024 else cvb.toNat),
        (Instr.progResult15 cvb value, cvb.toNat + 256), (Instr.progResult16 cvb value, cvb.toNat + 512),
        (Instr.progResult17 cvb value, cvb.toNat + 768)],
      (s.rx.kind = .direct →
        ∃ t, exec p.1 s = .next t ∧ t.res.cv.toNat = p.2 ∧
          t = { s with
            opst := .ok
            res := { ResultRegs.reset with
              kind := .progResult, code := s.rx.hdr &&& 0xF0#8, cv := t.res.cv, value := value } }) ∧
      (s.rx.kind = .broadcast → exec p.1 s = .next { s with res := .reset, opst := .unknownMessageError })

/-- R175, R178 (log entry 6): track status of a READY frame, for every value of the parameters that R7 allows. In a broadcast frame: off, on or
programming by the state byte, UnknownMessageError for any other byte; in a direct one UnknownMessageError. -/
def Obligations.TrackStatusGivesTheState : Prop :=
  ∀ (s : State) (state : Byte), s.rx.state = .ready → s.cfg.Valid →
    (s.rx.kind = .broadcast →
      ∀ p ∈ [(s.cfg.trackStateOff, TrackState.off), (0x01#8, TrackState.on),
          (s.cfg.trackStateProg, TrackState.programming)],
        state = p.1 →
          exec (.trackStatus state) s =
            .next { s with
              opst := .ok
              res := { ResultRegs.reset with
                kind := .trackStatus, code := s.rx.hdr &&& 0xF0#8, bcst := true, track := p.2 } }) ∧
    (s.rx.kind = .direct ∨ state ∉ [s.cfg.trackStateOff, 0x01#8, s.cfg.trackStateProg] →
      exec (.trackStatus state) s = .next { s with res := .reset, opst := .unknownMessageError })

/-- R179 (log entry 6): interface: the data after a subcode 0x01, 0x02 or 0x03, whatever the preamble; no subcode, or another one, is
UnknownMessageError. -/
def Obligations.InterfaceReplyGivesTheData : Prop :=
  ∀ (s : State) (data : List Byte), s.rx.state = .ready → data.length ≤ 14 →
    (∀ i ∈ [Instr.ifaceReply01 data, .ifaceReply02 data, .ifaceReply03 data],
      ∃ t, exec i s = .next t ∧ t.opst = .ok ∧ t.res.kind = .cmdResult ∧ t.res.stkind = false ∧ t.res.status = 0x00 ∧
        t.res.plen.toNat = data.length ∧ (∀ j : Fin 15, t.res.pay[j] = data.getD j.val 0x00) ∧
        t.res.code = s.rx.hdr &&& 0xF0#8 ∧ (t.res.bcst = true ↔ s.rx.kind = .broadcast) ∧
        t = { s with res := t.res, opst := .ok }) ∧
    (∀ ctx : Bool, hiNibble s.rx.hdr = 0xF →
      (s.rx.payload = 0x01 :: data → exec (.unpack ctx) s = exec (.ifaceReply01 data) s) ∧
      (s.rx.payload = 0x02 :: data → exec (.unpack ctx) s = exec (.ifaceReply02 data) s) ∧
      (s.rx.payload = 0x03 :: data → exec (.unpack ctx) s = exec (.ifaceReply03 data) s) ∧
      (headerLength s.rx.hdr = 0 ∨ s.rx.buf[0] ∉ [0x01#8, 0x02, 0x03] →
        exec (.unpack ctx) s = .next { s with res := .reset, opst := .unknownMessageError }))

/-- R180 (log entry 6): accessory report of two bytes, whatever the preamble: address, the undetermined flag at the parameter's bit, the kind of
bits 6-5, nibble, state vector; any other length is UnknownMessageError. -/
def Obligations.AccessoryReportGivesTheFields : Prop :=
  ∀ (s : State) (address f : Byte), s.rx.state = .ready →
    (∃ t, exec (.accReport address f) s = .next t ∧ t.opst = .ok ∧ t.res.kind = .accState ∧ t.res.addr = address ∧
      t.res.undet = f.getLsbD s.cfg.accUndetBit.val ∧ t.res.akind.bits.toNat = f.toNat / 32 % 4 ∧
      t.res.nib = f.getLsbD 4 ∧ t.res.statev.toNat = f.toNat % 16 ∧ t.res.code = s.rx.hdr &&& 0xF0#8 ∧
      (t.res.bcst = true ↔ s.rx.kind = .broadcast) ∧ t = { s with res := t.res, opst := .ok }) ∧
    (∀ ctx : Bool, hiNibble s.rx.hdr = 0x4 →
      (s.rx.payload = [address, f] → exec (.unpack ctx) s = exec (.accReport address f) s) ∧
      (headerLength s.rx.hdr ≠ 2 →
        exec (.unpack ctx) s = .next { s with res := .reset, opst := .unknownMessageError }))

/-- R185: UNPACK writes no RX_* register, so the frame stays held and UNPACK can be repeated with the same result; RX_RELEASE does
not clear the result. -/
def Obligations.UnpackLeavesTheFrame : Prop :=
  (∀ (ctx : Bool) (s : State), ∃ t, exec (.unpack ctx) s = .next t ∧ t.rx = s.rx ∧ exec (.unpack ctx) t = .next t) ∧
  (∀ s : State, ∃ t, exec .rxRelease s = .next t ∧ t.res = s.res)

/-- R183, R184: BCD splits any byte into its two nibbles, above 9 too, without an error. -/
def Obligations.BcdSplitsTheByte : Prop :=
  ∀ b : Byte, decodeCommand (0x30#8 ++ b) = .ok (.bcd b) ∧
    ∀ s : State, ∃ t, exec (.bcd b) s = .next t ∧ t.bcd.hi.toNat = b.toNat / 16 ∧ t.bcd.lo.toNat = b.toNat % 16 ∧
      t = { s with bcd := t.bcd, opst := .ok }

/-! ## System -/

/-- R210, R260, R262: RST and the reset input put every register at its reset value and leave the pending bytes and the bytes
emitted alone; RST with a non-zero IMM is illegal. That the parameters and the model's own two lists stay too is the model's choice
(log entry 12), which no rule states. -/
def Obligations.ResetRestoresEveryRegister : Prop :=
  (∀ (imm : Byte) (s : State), perform (.command (0xF0#8 ++ imm)) s =
    if imm = 0x00 then exec .rst s else .next { s with opst := .illegalCommand }) ∧
  ∀ s : State,
    exec .rst s = perform .resetInput s ∧
    exec .rst s =
      .next { State.reset with
        pending := s.pending, sent := s.sent, cfg := s.cfg, readLog := s.readLog, offers := s.offers }

/-- R260: every register, by name, right after power-on, the reset input or RST; through the read port every address reads 0. -/
def Obligations.RegistersAfterReset : Prop :=
  ∀ t : State, (t = State.reset ∨ ∃ s, perform .resetInput s = .next t ∨ exec .rst s = .next t) →
    t.rx.state = .pre0 ∧ t.rx.kind = .direct ∧ t.rx.pre = 0x0000 ∧ t.rx.hdr = 0 ∧ t.rx.idx = 0 ∧ t.rx.xor = 0 ∧
    t.rx.chk = 0 ∧ (∀ i : Fin 15, t.rx.buf[i] = 0x00 ∧ t.tx.buf[i] = 0x00 ∧ t.res.pay[i] = 0x00) ∧
    t.tx.state = .idle ∧ t.tx.code = 0 ∧ t.tx.cnt = 0 ∧ t.tx.xor = 0 ∧ t.cks.acc = 0x00 ∧ t.cks.eq = false ∧
    t.bcd.hi = 0 ∧ t.bcd.lo = 0 ∧ t.opst.code = 0x00 ∧ t.res.kind = .none ∧ (∀ a : Byte, regRead t a = 0x00)

/-- R80, R212: a word that decodes to no command writes OPST with IllegalCommand (0x01) and nothing else. -/
def Obligations.IllegalWordWritesOnlyOpst : Prop :=
  ∀ (s : State) (w : CommandWord) (later : List Offer), s.offers = .command w :: later →
    (∀ i, decodeCommand w ≠ .ok i) →
    ∃ t, step s = .next t ∧ t.opst.code = 0x01 ∧ t = { s with opst := .illegalCommand, offers := later }

/-! ## The read port -/

/-- R56: the read map, address by address, with the codes of OPST (R230) and of RES_KIND (R38) by number; the bits of 0x00 and
0x12 are the next statement's. -/
def Obligations.ReadMapShowsTheRegisters : Prop :=
  ∀ s : State,
    regRead s 0x00 = statusByte s ∧ regRead s 0x12 = resFlags s.res ∧
    regRead s 0x01 = s.opst.code ∧
    (∀ p ∈ [(OpStatus.ok, 0x00#8), (.illegalCommand, 0x01#8), (.encodingConstraintError, 0x02#8),
        (.unknownMessageError, 0x03#8), (.noFrame, 0x04#8), (.invalidFrame, 0x05#8), (.txNotStarted, 0x06#8)],
      s.opst = p.1 ↔ regRead s 0x01 = p.2) ∧
    regRead s 0x02 ++ regRead s 0x03 = s.rx.pre ∧ regRead s 0x04 = s.rx.hdr ∧
    (regRead s 0x05).toNat = s.rx.idx.toNat ∧ regRead s 0x06 = s.rx.xor ∧ regRead s 0x07 = s.rx.chk ∧
    (regRead s 0x08).toNat = 16 * s.tx.code.toNat ∧ (regRead s 0x09).toNat = s.tx.cnt.toNat ∧ regRead s 0x0A = s.tx.xor ∧
    regRead s 0x0B = s.cks.acc ∧ (regRead s 0x0C).toNat = s.bcd.hi.toNat ∧ (regRead s 0x0D).toNat = s.bcd.lo.toNat ∧
    (regRead s 0x10).toNat = s.res.kind.bits.toNat ∧
    (∀ p ∈ [(ResKind.none, 0x00#8), (.cmdResult, 0x01#8), (.progResult, 0x02#8), (.accState, 0x03#8), (.trackStatus, 0x04#8)],
      s.res.kind = p.1 ↔ regRead s 0x10 = p.2) ∧
    regRead s 0x11 = s.res.code ∧ regRead s 0x13 = s.res.status ∧
    256 * (regRead s 0x14).toNat + (regRead s 0x15).toNat = s.res.cv.toNat ∧
    regRead s 0x16 = s.res.value ∧ regRead s 0x17 = s.res.addr ∧ (regRead s 0x18).toNat = s.res.statev.toNat ∧
    (regRead s 0x19).toNat = s.res.plen.toNat ∧
    (∀ i : Fin 15, regRead s (BitVec.ofNat 8 (0x20 + i.val)) = s.rx.buf[i]) ∧
    (∀ i : Fin 15, regRead s (BitVec.ofNat 8 (0x30 + i.val)) = s.tx.buf[i]) ∧
    (∀ i : Fin 15, regRead s (BitVec.ofNat 8 (0x40 + i.val)) = s.res.pay[i]) ∧
    (∀ a : Byte, a.toNat = 0x0E ∨ a.toNat = 0x0F ∨ (0x1A ≤ a.toNat ∧ a.toNat ≤ 0x1F) ∨ a.toNat = 0x2F ∨
      a.toNat = 0x3F ∨ 0x4F ≤ a.toNat → regRead s a = 0x00)

/-- R57, R58: the bits of STATUS (address 0x00) and of RES_FLAGS (address 0x12), with the codes of RX_STATE (R21), of RES_AKIND
(R44) and of RES_TRACK (R45) by number. -/
def Obligations.StatusAndFlagsBits : Prop :=
  ∀ s : State,
    (regRead s 0x00).extractLsb' 0 3 = s.rx.state.bits ∧
    (∀ p ∈ [(RxState.pre0, 0#3), (.pre1, 1#3), (.hdr, 2#3), (.pay, 3#3), (.chk, 4#3), (.ready, 5#3), (.ckerr, 6#3),
        (.desync, 7#3)],
      s.rx.state = p.1 ↔ (regRead s 0x00).extractLsb' 0 3 = p.2) ∧
    ((regRead s 0x00).getLsbD 3 = true ↔ s.rx.kind = .broadcast) ∧
    ((regRead s 0x00).getLsbD 4 = true ↔ s.tx.state = .build) ∧ (regRead s 0x00).getLsbD 5 = s.cks.eq ∧
    (regRead s 0x00).extractLsb' 6 2 = 0 ∧
    (regRead s 0x12).getLsbD 0 = s.res.stkind ∧ (regRead s 0x12).getLsbD 1 = s.res.bcst ∧
    (regRead s 0x12).getLsbD 2 = s.res.undet ∧ (regRead s 0x12).getLsbD 3 = s.res.nib ∧
    (regRead s 0x12).extractLsb' 4 2 = s.res.akind.bits ∧
    (∀ p ∈ [(AccKind.outputNoFeedback, 0#2), (.outputWithFeedback, 1#2), (.input, 2#2), (.reserved, 3#2)],
      s.res.akind = p.1 ↔ (regRead s 0x12).extractLsb' 4 2 = p.2) ∧
    (regRead s 0x12).extractLsb' 6 2 = s.res.track.bits ∧
    (∀ p ∈ [(TrackState.off, 0#2), (.on, 1#2), (.programming, 2#2)],
      s.res.track = p.1 ↔ (regRead s 0x12).extractLsb' 6 2 = p.2)

/-- R55: a read is a step that changes no state of the block, neither OPST nor any register nor a stream; the host gets the value
of the read map (log entry 3). -/
def Obligations.RegReadHasNoSideEffect : Prop :=
  ∀ (s : State) (a : Byte), exec (.regRead a) s = .next { s with readLog := s.readLog ++ [(a, regRead s a)] }

/-- R47: no state of the block is unreadable: two states that read alike at every address hold the same registers. -/
def Obligations.EveryRegisterIsReadable : Prop :=
  ∀ s t : State, (∀ a : Byte, regRead s a = regRead t a) →
    s.rx = t.rx ∧ s.tx = t.tx ∧ s.cks = t.cks ∧ s.bcd = t.bcd ∧ s.opst = t.opst ∧ s.res = t.res

/-! ## Frames: what an instruction leaves unchanged, through the read port -/

/-- CKS_CLR and CKS_ADD change only what reads at OPST and CKS_ACC, CKS_VERIFY only OPST and STATUS bit 5, BCD only OPST, BCD_HI
and BCD_LO; the streams and the parameters stay. -/
def Obligations.ChecksumAndBcdFrame : Prop :=
  ∀ (s : State) (b : Byte), ∀ p ∈ [(Instr.cksClr, [0x01#8, 0x0B]), (Instr.cksAdd b, [0x01#8, 0x0B]),
      (Instr.cksVerify b, [0x00#8, 0x01]), (Instr.bcd b, [0x01#8, 0x0C, 0x0D])],
    ∃ t, exec p.1 s = .next t ∧ (∀ a : Byte, a ∉ p.2 → regRead t a = regRead s a) ∧
      regRead t 0x00 &&& 0xDF#8 = regRead s 0x00 &&& 0xDF#8 ∧
      t.pending = s.pending ∧ t.sent = s.sent ∧ t.cfg = s.cfg ∧ t.readLog = s.readLog

/-- TX_START, TX_PARAM, TX_SEND and FRAME_OUT change only OPST, STATUS bit 4 and the encoder's registers, and only the last two the
transmit stream. R121 to R123 speak of the three commands; that FRAME_OUT does what TX_SEND does is the model's reading (log
entry 7). -/
def Obligations.EncoderFrame : Prop :=
  ∀ (s : State) (b : Byte) (c : CodeFamily) (params : List Byte),
    ∀ i ∈ [Instr.txStart c, .txParam b, .txSend, .frameOut c params],
      ∃ t, exec i s = .next t ∧
        (∀ a : Byte, a ∉ [0x00#8, 0x01, 0x08, 0x09, 0x0A] → ¬ (0x30 ≤ a.toNat ∧ a.toNat ≤ 0x3E) →
          regRead t a = regRead s a) ∧
        regRead t 0x00 &&& 0xEF#8 = regRead s 0x00 &&& 0xEF#8 ∧
        (∀ j : Fin 15, i = .txParam b → j.val ≠ s.tx.cnt.toNat → t.tx.buf[j] = s.tx.buf[j]) ∧
        (i ≠ .txParam b → t.tx.buf = s.tx.buf) ∧
        (i = .txStart c ∨ i = .txParam b → t.sent = s.sent) ∧
        t.pending = s.pending ∧ t.cfg = s.cfg ∧ t.readLog = s.readLog

/-- RX_BYTE and FRAME_IN change only STATUS bits 3-0, the decoder's registers and the pending bytes, never OPST (R140, R238);
RX_RELEASE changes only OPST and STATUS bits 2-0. R140 and R238 speak of the receive step; that FRAME_IN is the receive steps of its
bytes is the model's reading (log entry 7). -/
def Obligations.DecoderFrame : Prop :=
  (∀ (s t : State) (b : Byte) (kind : FrameKind) (code : Nibble) (payload : List Byte),
    ∀ i ∈ [Instr.rxByte b, .frameIn kind code payload], exec i s = .next t →
      (∀ a : Byte, a ∉ [0x00#8, 0x02, 0x03, 0x04, 0x05, 0x06, 0x07] → ¬ (0x20 ≤ a.toNat ∧ a.toNat ≤ 0x2E) →
        regRead t a = regRead s a) ∧
      regRead t 0x00 &&& 0xF0#8 = regRead s 0x00 &&& 0xF0#8 ∧
      t.sent = s.sent ∧ t.cfg = s.cfg ∧ t.readLog = s.readLog) ∧
  (∀ s : State, ∃ t, exec .rxRelease s = .next t ∧
    (∀ a : Byte, a ∉ [0x00#8, 0x01] → regRead t a = regRead s a) ∧
    regRead t 0x00 &&& 0xF8#8 = regRead s 0x00 &&& 0xF8#8 ∧
    t.pending = s.pending ∧ t.sent = s.sent ∧ t.cfg = s.cfg ∧ t.readLog = s.readLog)

/-- UNPACK and every payload shape change only OPST and the result registers. R170 and R185 speak of UNPACK; that a shape's row does
what UNPACK does is the model's reading (log entry 6). -/
def Obligations.UnpackerFrame : Prop :=
  ∀ (s : State) (ctx : Bool) (x y : Byte) (data : List Byte),
    ∀ i ∈ [Instr.unpack ctx, .ifstatusReply data, .ifstatusStatus x, .progResult10 x y, .progResult14 x y, .progResult15 x y,
        .progResult16 x y, .progResult17 x y, .trackStatus x, .ifaceReply01 data, .ifaceReply02 data, .ifaceReply03 data,
        .accReport x y],
      ∃ t, exec i s = .next t ∧
        (∀ a : Byte, a ≠ 0x01 → ¬ (0x10 ≤ a.toNat ∧ a.toNat ≤ 0x19) → ¬ (0x40 ≤ a.toNat ∧ a.toNat ≤ 0x4E) →
          regRead t a = regRead s a) ∧
        t.pending = s.pending ∧ t.sent = s.sent ∧ t.cfg = s.cfg ∧ t.readLog = s.readLog

/-! ## The whole machine -/

/-- R211, R140, R55 (log entry 1): a step takes the oldest offer and runs the instruction it decodes to: a legal command word, the
transport's first pending byte, a read. -/
def Obligations.StepRunsTheDecodedInstruction : Prop :=
  ∀ (s : State) (o : Offer) (later : List Offer), s.offers = o :: later →
    (∀ w i, o = .command w → decodeCommand w = .ok i → step s = exec i { s with offers := later }) ∧
    (∀ b more, o = .receive → s.pending = b :: more → step s = exec (.rxByte b) { s with offers := later }) ∧
    (o = .receive → s.pending = [] → step s = .next { s with offers := later }) ∧
    (∀ a, o = .read a → step s = exec (.regRead a) { s with offers := later })

/-- R238, R7: a receive step, a read, or an arriving byte never changes OPST; and no step at all changes the parameters. -/
def Obligations.OnlyCommandsWriteOpstAndNothingTheParameters : Prop :=
  ∀ s t : State, step s = .next t →
    (s.offers.head?.all (fun o => !o.isCommand && !o.resets) → t.opst = s.opst) ∧ t.cfg = s.cfg

/-- R238, R63: a command other than RX_RELEASE, UNPACK and RST does not depend on whether a receive step comes just before or just
after it: the two orders give the same state. -/
def Obligations.ReceiveStepsCommuteWithOtherCommands : Prop :=
  ∀ (s : State) (x b : Byte) (c : CodeFamily),
    ∀ i ∈ [Instr.cksClr, .cksAdd x, .cksVerify x, .txStart c, .txParam x, .txSend, .bcd x],
      andThen (exec i s) (exec (.rxByte b)) = andThen (exec (.rxByte b) s) (exec i)

/-- R63: the receive path and the transmit path share no state: what a receive step does to the decoder and the pending bytes
depends on those alone, and what an encoder command does to the encoder and the transmit stream on those alone. -/
def Obligations.ReceiveAndTransmitShareNoState : Prop :=
  (∀ (s t u v : State) (b : Byte), s.rx = t.rx → s.pending = t.pending →
    exec (.rxByte b) s = .next u → exec (.rxByte b) t = .next v → u.rx = v.rx ∧ u.pending = v.pending ∧ u.tx = s.tx) ∧
  (∀ (s t : State) (x : Byte) (c : CodeFamily), s.tx = t.tx → s.sent = t.sent →
    ∀ i ∈ [Instr.txStart c, .txParam x, .txSend],
      ∃ u v, exec i s = .next u ∧ exec i t = .next v ∧ u.tx = v.tx ∧ u.sent = v.sent ∧ u.opst = v.opst ∧ u.rx = s.rx)

/-- The table of 10_state.md, "written by": a step that changes a unit's registers performs one of that unit's own commands, or a
reset; the decoder's change in receive steps and RX_RELEASE only. -/
def Obligations.EachUnitIsWrittenByItsOwnSteps : Prop :=
  ∀ (s t : State) (o : Offer) (later : List Offer), s.offers = o :: later → step s = .next t → o.resets = false →
    (t.rx ≠ s.rx → o = .receive ∨ o = .command 0x2000) ∧
    (t.tx ≠ s.tx → o.isEncoderCommand = true) ∧
    (t.cks ≠ s.cks → ∃ b : Byte, o = .command 0x0100 ∨ o = .command (0x02#8 ++ b) ∨ o = .command (0x03#8 ++ b)) ∧
    (t.bcd ≠ s.bcd → ∃ b : Byte, o = .command (0x30#8 ++ b)) ∧
    (t.res ≠ s.res → o = .command 0x2100 ∨ o = .command 0x2101)

/-- The registers after reset meet the invariant. -/
def Obligations.ResetMeetsTheInvariant : Prop := State.reset.Inv ∧ WholeFrames State.reset.sent

/-- Every step keeps the invariant of the registers: the decoder's progress, running checksum, verdict and preamble class (R27,
R143 to R146), the encoder's checksum and code (R33, R121), the result registers' discipline and ranges (R38 to R45, R181). -/
def Obligations.EveryStepKeepsTheInvariant : Prop :=
  ∀ s t : State, s.Inv → step s = .next t → t.Inv

/-- R145's derivation, for the whole machine: under the invariant no step stops. The model's one stop (log entry 5, its own choice)
is a receive step in PAY with RX_IDX = 15, for which RX_BUF has no register; and no step is refused. -/
def Obligations.NoStepStopsUnderTheInvariant : Prop :=
  (∀ s : State, s.Inv → ∃ t, step s = .next t) ∧
  (∀ (s : State) (e : Fault), step s = .fault e ↔
    e = .rxIndexOutOfRange ∧ s.offers.head? = some .receive ∧ s.pending ≠ [] ∧ s.rx.state = .pay ∧ s.rx.idx = 15) ∧
  (∀ (s : State) (r : Refusal), step s ≠ .refused r)

/-- From reset, with any parameters, any bytes pending and any offers made, no run stops, and every state on the way meets the
invariant and has emitted only whole frames. -/
def Obligations.EveryRunFromResetIsSafe : Prop :=
  ∀ (cfg : Config) (pending : List Byte) (os : List Offer) (n : Nat),
    ∃ t, Sys2Proof.core.run n { State.reset with cfg := cfg, pending := pending, offers := os } = .next t ∧
      t.Inv ∧ WholeFrames t.sent ∧ t.cfg = cfg
end

