-- ==== Sys2Proof/Laws/Bits.lean ====
section
/-! SUPPORT. Laws of the bit fields, of CODESET and of the checksum function. -/

namespace Sys2Proof

/-! ### Bit fields -/

@[simp] theorem hiNibble_joinNibbles (h l : Nibble) : hiNibble (joinNibbles h l) = h := by
  revert h l; decide

@[simp] theorem loNibble_joinNibbles (h l : Nibble) : loNibble (joinNibbles h l) = l := by
  revert h l; decide

theorem joinNibbles_hi_lo (b : Byte) : joinNibbles (hiNibble b) (loNibble b) = b := by
  revert b; decide

theorem loNibble_toNat (b : Byte) : (loNibble b).toNat = b.toNat % 16 := by
  revert b; decide

theorem hiNibble_toNat (b : Byte) : (hiNibble b).toNat = b.toNat / 16 := by
  revert b; decide

theorem getLsbD_joinBytes (h l : Byte) (i : Nat) :
    (joinBytes h l).getLsbD i = if i < 8 then l.getLsbD i else h.getLsbD (i - 8) := by
  have := BitVec.getLsbD_append (x := h) (y := l) (i := i)
  simpa [joinBytes] using this

@[simp] theorem hiByte_joinBytes (h l : Byte) : hiByte (joinBytes h l) = h := by
  apply BitVec.eq_of_getLsbD_eq
  intro i hi
  rw [hiByte, BitVec.getLsbD_extractLsb', getLsbD_joinBytes]
  simp [hi]

@[simp] theorem loByte_joinBytes (h l : Byte) : loByte (joinBytes h l) = l := by
  apply BitVec.eq_of_getLsbD_eq
  intro i hi
  rw [loByte, BitVec.getLsbD_extractLsb', getLsbD_joinBytes]
  simp [hi]

theorem joinBytes_hi_lo (w : BitVec 16) : joinBytes (hiByte w) (loByte w) = w := by
  apply BitVec.eq_of_getLsbD_eq
  intro i hi
  rw [getLsbD_joinBytes, hiByte, loByte, BitVec.getLsbD_extractLsb', BitVec.getLsbD_extractLsb']
  by_cases h8 : i < 8
  · simp [h8]
  · have : i - 8 < 8 := by omega
    have : 8 + (i - 8) = i := by omega
    simp [*]

theorem joinBytes_inj {a b c d : Byte} : joinBytes a b = joinBytes c d ↔ a = c ∧ b = d := by
  constructor
  · intro h
    exact ⟨by simpa using congrArg hiByte h, by simpa using congrArg loByte h⟩
  · rintro ⟨rfl, rfl⟩; rfl

/-! ### CODESET (R8) -/

@[simp] theorem ofNibble_nibble (c : CodeFamily) : CodeFamily.ofNibble c.nibble = some c := by
  cases c <;> decide

theorem ofNibble_eq_some {n : Nibble} {c : CodeFamily} : CodeFamily.ofNibble n = some c ↔ n = c.nibble := by
  constructor
  · revert n c
    intro n c
    cases c <;> revert n <;> decide
  · rintro rfl; simp

theorem nibble_injective {c d : CodeFamily} (h : c.nibble = d.nibble) : c = d := by
  simpa using congrArg CodeFamily.ofNibble h

/-! ### Preambles (R72) -/

@[simp] theorem ofPreamble_preamble (k : FrameKind) : FrameKind.ofPreamble k.preamble = some k := by
  cases k <;> decide

theorem ofPreamble_eq_some {p : BitVec 16} {k : FrameKind} : FrameKind.ofPreamble p = some k ↔ p = k.preamble := by
  unfold FrameKind.ofPreamble
  cases k <;> simp only [FrameKind.preamble] <;> split <;> simp_all

theorem ofPreamble_eq_none {p : BitVec 16} : FrameKind.ofPreamble p = none ↔ p ≠ 0xFFFE ∧ p ≠ 0xFFFD := by
  unfold FrameKind.ofPreamble
  split <;> simp_all

/-! ### The checksum function (R100, R105) -/

@[simp] theorem xorSum_nil : xorSum [] = 0x00#8 := rfl

theorem xorSum_snoc (s : List Byte) (b : Byte) : xorSum (s ++ [b]) = xorSum s ^^^ b := by
  simp [xorSum]

theorem foldl_xor_start (s : List Byte) (a : Byte) : s.foldl (fun acc b => acc ^^^ b) a = a ^^^ xorSum s := by
  induction s generalizing a with
  | nil => simp
  | cons x xs ih =>
    have hx : xorSum (x :: xs) = xs.foldl (fun acc b => acc ^^^ b) (0x00#8 ^^^ x) := rfl
    rw [List.foldl_cons, hx, ih, ih (0x00#8 ^^^ x), BitVec.zero_xor, BitVec.xor_assoc]

@[simp] theorem xorSum_cons (b : Byte) (s : List Byte) : xorSum (b :: s) = b ^^^ xorSum s := by
  rw [xorSum, List.foldl_cons, foldl_xor_start]; simp

/-! ### Headers and lengths (R71) -/

theorem headerLength_headerByte (code : Nibble) {payload : List Byte} (h : payload.length ≤ 15) :
    headerLength (headerByte code payload) = payload.length := by
  simp only [headerLength, headerByte, loNibble_joinNibbles, BitVec.toNat_ofNat]
  omega

@[simp] theorem hiNibble_headerByte (code : Nibble) (payload : List Byte) : hiNibble (headerByte code payload) = code := by
  simp [headerByte]

theorem headerLength_le (h : Byte) : headerLength h ≤ 15 := by
  have := (loNibble h).isLt
  simp only [headerLength]; omega

/-- A header is rebuilt from its code nibble and a payload of the length it announces. -/
theorem headerByte_hiNibble {h : Byte} {payload : List Byte} (hl : payload.length = headerLength h) :
    headerByte (hiNibble h) payload = h := by
  rw [headerByte, hl, headerLength, BitVec.ofNat_toNat, BitVec.setWidth_eq, joinNibbles_hi_lo]

/-! ### The decoders -/

theorem decodeInbound_frame (kind : FrameKind) {h : Byte} {payload : List Byte} (hl : payload.length = headerLength h)
    (after : List Byte) :
    decodeInbound (inboundBytes kind h payload ++ after) = .ok (.frameIn kind (hiNibble h) payload, after) := by
  have hp : joinBytes (hiByte kind.preamble) (loByte kind.preamble) = kind.preamble := joinBytes_hi_lo _
  simp [inboundBytes, decodeInbound, hp, ← hl]

theorem decodeOutbound_frame (c : CodeFamily) {params : List Byte} (hl : params.length ≤ 15) (after : List Byte) :
    decodeOutbound (outboundBytes c.nibble params ++ after) = .ok (.frameOut c params, after) := by
  have hp : joinBytes 0xFF#8 0xFE#8 = 0xFFFE#16 := by decide
  simp [outboundBytes, decodeOutbound, hp, headerLength_headerByte _ hl]

end Sys2Proof
end

