-- ==== Sys2Proof/Laws/State.lean ====
section
/-! SUPPORT. One lemma per field of State for each shared update, so that no later proof unfolds a record update. -/

namespace Sys2Proof.Machine

@[simp] theorem raise_rx (e : OpStatus) (s : State) : (raise e s).rx = s.rx := rfl
@[simp] theorem raise_tx (e : OpStatus) (s : State) : (raise e s).tx = s.tx := rfl
@[simp] theorem raise_cks (e : OpStatus) (s : State) : (raise e s).cks = s.cks := rfl
@[simp] theorem raise_bcd (e : OpStatus) (s : State) : (raise e s).bcd = s.bcd := rfl
@[simp] theorem raise_opst (e : OpStatus) (s : State) : (raise e s).opst = e := rfl
@[simp] theorem raise_res (e : OpStatus) (s : State) : (raise e s).res = s.res := rfl
@[simp] theorem raise_pending (e : OpStatus) (s : State) : (raise e s).pending = s.pending := rfl
@[simp] theorem raise_sent (e : OpStatus) (s : State) : (raise e s).sent = s.sent := rfl
@[simp] theorem raise_cfg (e : OpStatus) (s : State) : (raise e s).cfg = s.cfg := rfl
@[simp] theorem raise_readLog (e : OpStatus) (s : State) : (raise e s).readLog = s.readLog := rfl
@[simp] theorem raise_offers (e : OpStatus) (s : State) : (raise e s).offers = s.offers := rfl

@[simp] theorem complete_rx (s : State) : (complete s).rx = s.rx := rfl
@[simp] theorem complete_tx (s : State) : (complete s).tx = s.tx := rfl
@[simp] theorem complete_cks (s : State) : (complete s).cks = s.cks := rfl
@[simp] theorem complete_bcd (s : State) : (complete s).bcd = s.bcd := rfl
@[simp] theorem complete_opst (s : State) : (complete s).opst = .ok := rfl
@[simp] theorem complete_res (s : State) : (complete s).res = s.res := rfl
@[simp] theorem complete_pending (s : State) : (complete s).pending = s.pending := rfl
@[simp] theorem complete_sent (s : State) : (complete s).sent = s.sent := rfl
@[simp] theorem complete_cfg (s : State) : (complete s).cfg = s.cfg := rfl
@[simp] theorem complete_readLog (s : State) : (complete s).readLog = s.readLog := rfl
@[simp] theorem complete_offers (s : State) : (complete s).offers = s.offers := rfl

@[simp] theorem take_rx (s : State) : (take s).rx = s.rx := rfl
@[simp] theorem take_tx (s : State) : (take s).tx = s.tx := rfl
@[simp] theorem take_cks (s : State) : (take s).cks = s.cks := rfl
@[simp] theorem take_bcd (s : State) : (take s).bcd = s.bcd := rfl
@[simp] theorem take_opst (s : State) : (take s).opst = s.opst := rfl
@[simp] theorem take_res (s : State) : (take s).res = s.res := rfl
@[simp] theorem take_pending (s : State) : (take s).pending = s.pending.tail := rfl
@[simp] theorem take_sent (s : State) : (take s).sent = s.sent := rfl
@[simp] theorem take_cfg (s : State) : (take s).cfg = s.cfg := rfl
@[simp] theorem take_readLog (s : State) : (take s).readLog = s.readLog := rfl
@[simp] theorem take_offers (s : State) : (take s).offers = s.offers := rfl

@[simp] theorem arrive_rx (bytes : List Byte) (s : State) : (arrive bytes s).rx = s.rx := rfl
@[simp] theorem arrive_tx (bytes : List Byte) (s : State) : (arrive bytes s).tx = s.tx := rfl
@[simp] theorem arrive_cks (bytes : List Byte) (s : State) : (arrive bytes s).cks = s.cks := rfl
@[simp] theorem arrive_bcd (bytes : List Byte) (s : State) : (arrive bytes s).bcd = s.bcd := rfl
@[simp] theorem arrive_opst (bytes : List Byte) (s : State) : (arrive bytes s).opst = s.opst := rfl
@[simp] theorem arrive_res (bytes : List Byte) (s : State) : (arrive bytes s).res = s.res := rfl
@[simp] theorem arrive_pending (bytes : List Byte) (s : State) : (arrive bytes s).pending = s.pending ++ bytes := rfl
@[simp] theorem arrive_sent (bytes : List Byte) (s : State) : (arrive bytes s).sent = s.sent := rfl
@[simp] theorem arrive_cfg (bytes : List Byte) (s : State) : (arrive bytes s).cfg = s.cfg := rfl
@[simp] theorem arrive_readLog (bytes : List Byte) (s : State) : (arrive bytes s).readLog = s.readLog := rfl
@[simp] theorem arrive_offers (bytes : List Byte) (s : State) : (arrive bytes s).offers = s.offers := rfl

@[simp] theorem emit_rx (bytes : List Byte) (s : State) : (emit bytes s).rx = s.rx := rfl
@[simp] theorem emit_tx (bytes : List Byte) (s : State) : (emit bytes s).tx = s.tx := rfl
@[simp] theorem emit_cks (bytes : List Byte) (s : State) : (emit bytes s).cks = s.cks := rfl
@[simp] theorem emit_bcd (bytes : List Byte) (s : State) : (emit bytes s).bcd = s.bcd := rfl
@[simp] theorem emit_opst (bytes : List Byte) (s : State) : (emit bytes s).opst = s.opst := rfl
@[simp] theorem emit_res (bytes : List Byte) (s : State) : (emit bytes s).res = s.res := rfl
@[simp] theorem emit_pending (bytes : List Byte) (s : State) : (emit bytes s).pending = s.pending := rfl
@[simp] theorem emit_sent (bytes : List Byte) (s : State) : (emit bytes s).sent = s.sent ++ bytes := rfl
@[simp] theorem emit_cfg (bytes : List Byte) (s : State) : (emit bytes s).cfg = s.cfg := rfl
@[simp] theorem emit_readLog (bytes : List Byte) (s : State) : (emit bytes s).readLog = s.readLog := rfl
@[simp] theorem emit_offers (bytes : List Byte) (s : State) : (emit bytes s).offers = s.offers := rfl

@[simp] theorem clearResult_rx (s : State) : (clearResult s).rx = s.rx := rfl
@[simp] theorem clearResult_tx (s : State) : (clearResult s).tx = s.tx := rfl
@[simp] theorem clearResult_cks (s : State) : (clearResult s).cks = s.cks := rfl
@[simp] theorem clearResult_bcd (s : State) : (clearResult s).bcd = s.bcd := rfl
@[simp] theorem clearResult_opst (s : State) : (clearResult s).opst = s.opst := rfl
@[simp] theorem clearResult_res (s : State) : (clearResult s).res = .reset := rfl
@[simp] theorem clearResult_pending (s : State) : (clearResult s).pending = s.pending := rfl
@[simp] theorem clearResult_sent (s : State) : (clearResult s).sent = s.sent := rfl
@[simp] theorem clearResult_cfg (s : State) : (clearResult s).cfg = s.cfg := rfl
@[simp] theorem clearResult_readLog (s : State) : (clearResult s).readLog = s.readLog := rfl
@[simp] theorem clearResult_offers (s : State) : (clearResult s).offers = s.offers := rfl

@[simp] theorem writeResult_rx (m : Message) (s : State) : (writeResult m s).rx = s.rx := rfl
@[simp] theorem writeResult_tx (m : Message) (s : State) : (writeResult m s).tx = s.tx := rfl
@[simp] theorem writeResult_cks (m : Message) (s : State) : (writeResult m s).cks = s.cks := rfl
@[simp] theorem writeResult_bcd (m : Message) (s : State) : (writeResult m s).bcd = s.bcd := rfl
@[simp] theorem writeResult_opst (m : Message) (s : State) : (writeResult m s).opst = s.opst := rfl
@[simp] theorem writeResult_res (m : Message) (s : State) : (writeResult m s).res = { messageFields m with code := s.rx.hdr &&& 0xF0, bcst := rxKindFlag s.rx.kind } := rfl
@[simp] theorem writeResult_pending (m : Message) (s : State) : (writeResult m s).pending = s.pending := rfl
@[simp] theorem writeResult_sent (m : Message) (s : State) : (writeResult m s).sent = s.sent := rfl
@[simp] theorem writeResult_cfg (m : Message) (s : State) : (writeResult m s).cfg = s.cfg := rfl
@[simp] theorem writeResult_readLog (m : Message) (s : State) : (writeResult m s).readLog = s.readLog := rfl
@[simp] theorem writeResult_offers (m : Message) (s : State) : (writeResult m s).offers = s.offers := rfl

@[simp] theorem resetBlock_rx (s : State) : (resetBlock s).rx = .reset := rfl
@[simp] theorem resetBlock_tx (s : State) : (resetBlock s).tx = .reset := rfl
@[simp] theorem resetBlock_cks (s : State) : (resetBlock s).cks = .reset := rfl
@[simp] theorem resetBlock_bcd (s : State) : (resetBlock s).bcd = .reset := rfl
@[simp] theorem resetBlock_opst (s : State) : (resetBlock s).opst = .ok := rfl
@[simp] theorem resetBlock_res (s : State) : (resetBlock s).res = .reset := rfl
@[simp] theorem resetBlock_pending (s : State) : (resetBlock s).pending = s.pending := rfl
@[simp] theorem resetBlock_sent (s : State) : (resetBlock s).sent = s.sent := rfl
@[simp] theorem resetBlock_cfg (s : State) : (resetBlock s).cfg = s.cfg := rfl
@[simp] theorem resetBlock_readLog (s : State) : (resetBlock s).readLog = s.readLog := rfl
@[simp] theorem resetBlock_offers (s : State) : (resetBlock s).offers = s.offers := rfl

end Sys2Proof.Machine
end

