-- ==== Sys2Proof/Laws/Ops.lean ====
section
/-! SUPPORT. What each shared operation can do, said once. -/

namespace Sys2Proof.Machine

/-! ### Outcomes -/

@[simp] theorem andThen_next (s : State) (f : State → Result) : andThen (.next s) f = f s := rfl
@[simp] theorem andThen_fault (e : Fault) (f : State → Result) : andThen (.fault e) f = .fault e := rfl
@[simp] theorem andThen_refused (r : Refusal) (f : State → Result) : andThen (.refused r) f = .refused r := rfl

theorem andThen_assoc (r : Result) (f g : State → Result) :
    andThen (andThen r f) g = andThen r fun s => andThen (f s) g := by
  cases r <;> rfl

/-- A sequence that gives a next state gave one at its middle. -/
theorem andThen_eq_next {r : Result} {f : State → Result} {t : State} :
    andThen r f = .next t ↔ ∃ s, r = .next s ∧ f s = .next t := by
  cases r <;> simp [andThen]

/-! ### The result registers -/

/-- UNPACK's shared part changes only the result registers and OPST. -/
theorem unpackHeld_eq (m : Option Message) (s : State) :
    unpackHeld m s = { s with res := (unpackHeld m s).res, opst := (unpackHeld m s).opst } := by
  unfold unpackHeld
  split
  · rfl
  · split
    · rfl
    · cases m <;> rfl

theorem unpackHeld_ckerr (m : Option Message) {s : State} (h : s.rx.state = .ckerr) :
    unpackHeld m s = { s with res := .reset, opst := .invalidFrame } := by
  simp [unpackHeld, h, raise, clearResult]

theorem unpackHeld_noFrame (m : Option Message) {s : State} (h : s.rx.state ≠ .ckerr) (h' : s.rx.state ≠ .ready) :
    unpackHeld m s = { s with res := .reset, opst := .noFrame } := by
  simp [unpackHeld, h, h', raise, clearResult]

theorem unpackHeld_unknown {s : State} (h : s.rx.state = .ready) :
    unpackHeld none s = { s with res := .reset, opst := .unknownMessageError } := by
  simp [unpackHeld, h, raise, clearResult]

theorem unpackHeld_message (m : Message) {s : State} (h : s.rx.state = .ready) :
    unpackHeld (some m) s =
      { s with
        res := { messageFields m with code := s.rx.hdr &&& 0xF0, bcst := rxKindFlag s.rx.kind }, opst := .ok } := by
  simp [unpackHeld, h, complete, writeResult]

@[simp] theorem unpackHeld_rx (m : Option Message) (s : State) : (unpackHeld m s).rx = s.rx := by rw [unpackHeld_eq]
@[simp] theorem unpackHeld_tx (m : Option Message) (s : State) : (unpackHeld m s).tx = s.tx := by rw [unpackHeld_eq]
@[simp] theorem unpackHeld_cks (m : Option Message) (s : State) : (unpackHeld m s).cks = s.cks := by rw [unpackHeld_eq]
@[simp] theorem unpackHeld_bcd (m : Option Message) (s : State) : (unpackHeld m s).bcd = s.bcd := by rw [unpackHeld_eq]
@[simp] theorem unpackHeld_pending (m : Option Message) (s : State) : (unpackHeld m s).pending = s.pending := by
  rw [unpackHeld_eq]
@[simp] theorem unpackHeld_sent (m : Option Message) (s : State) : (unpackHeld m s).sent = s.sent := by rw [unpackHeld_eq]
@[simp] theorem unpackHeld_cfg (m : Option Message) (s : State) : (unpackHeld m s).cfg = s.cfg := by rw [unpackHeld_eq]
@[simp] theorem unpackHeld_readLog (m : Option Message) (s : State) : (unpackHeld m s).readLog = s.readLog := by
  rw [unpackHeld_eq]
@[simp] theorem unpackHeld_offers (m : Option Message) (s : State) : (unpackHeld m s).offers = s.offers := by
  rw [unpackHeld_eq]

theorem payBuffer_getElem (bytes : List Byte) (i : Fin 15) : (payBuffer bytes)[i] = bytes.getD i.val 0x00 := by
  simp [payBuffer]

/-! ### The encoder -/

/-- A frame is sent, or TxNotStarted is raised: the two things TX_SEND can do. -/
theorem sendFrame_cases (bytes : List Byte) (s : State) :
    (s.tx.state = .idle ∧ sendFrame bytes s = { s with opst := .txNotStarted }) ∨
    (s.tx.state = .build ∧
      sendFrame bytes s =
        { s with tx := { s.tx with state := .idle }, opst := .ok, sent := s.sent ++ bytes }) := by
  cases h : s.tx.state
  · exact .inl ⟨rfl, by simp [sendFrame, h, raise]⟩
  · exact .inr ⟨rfl, by simp [sendFrame, h, complete, emit]⟩

/-- The three things TX_PARAM can do. -/
theorem execTxParam_cases (b : Byte) (s : State) :
    (s.tx.state = .idle ∧ execTxParam b s = .next { s with opst := .txNotStarted }) ∨
    (s.tx.state = .build ∧ s.tx.cnt = 15 ∧
      execTxParam b s = .next { s with tx := { s.tx with state := .idle }, opst := .encodingConstraintError }) ∨
    (s.tx.state = .build ∧ s.tx.cnt.toNat < 15 ∧
      execTxParam b s =
        .next { s with
          tx := { s.tx with
            buf := s.tx.buf.setIfInBounds s.tx.cnt.toNat b, xor := s.tx.xor ^^^ b, cnt := s.tx.cnt + 1 }
          opst := .ok }) := by
  cases h : s.tx.state
  · exact .inl ⟨rfl, by simp [execTxParam, h, raise]⟩
  · refine .inr ?_
    by_cases h15 : s.tx.cnt = 15
    · exact .inl ⟨rfl, h15, by simp [execTxParam, h, h15, raise]⟩
    · have hne : ¬s.tx.cnt = 15#4 := h15
      refine .inr ⟨rfl, ?_, by simp [execTxParam, h, hne, complete]⟩
      have := s.tx.cnt.isLt
      have : s.tx.cnt.toNat ≠ 15 := fun e => h15 (BitVec.eq_of_toNat_eq e)
      omega

/-- Writing the entry after the first `n` makes them `n + 1`. -/
theorem take_setIfInBounds (buf : Buffer) {n : Nat} (h : n < 15) (b : Byte) :
    (buf.setIfInBounds n b).toList.take (n + 1) = buf.toList.take n ++ [b] := by
  rw [Vector.toList_setIfInBounds, List.take_add_one, List.take_set_of_le (Nat.le_refl n)]
  simp [h]

/-- TX_PARAM appends to the params sequence. -/
theorem params_append {t : EncoderRegs} (h : t.cnt.toNat < 15) (b x : Byte) (st : TxState) :
    EncoderRegs.params { t with
      state := st, buf := t.buf.setIfInBounds t.cnt.toNat b, xor := x, cnt := t.cnt + 1 } = t.params ++ [b] := by
  have : (t.cnt + 1).toNat = t.cnt.toNat + 1 := by
    rw [BitVec.toNat_add]; simp; omega
  simp only [EncoderRegs.params, this, take_setIfInBounds _ h]

/-! ### The decoder -/

/-- The eight things a receive step can do; the byte is `b`, taken from the pending ones unless the decoder holds. -/
theorem execRxByte_cases (b : Byte) (s : State) :
    (s.rx.state = .pre0 ∧ execRxByte b s = .next (rxPre0 b (take s))) ∨
    (s.rx.state = .pre1 ∧ execRxByte b s = .next (rxPre1 b (take s))) ∨
    (s.rx.state = .hdr ∧ execRxByte b s = .next (rxHeader b (take s))) ∨
    (s.rx.state = .pay ∧ s.rx.idx = 15 ∧ execRxByte b s = .fault .rxIndexOutOfRange) ∨
    (s.rx.state = .pay ∧ s.rx.idx.toNat < 15 ∧
      execRxByte b s =
        .next { s with
          pending := s.pending.tail
          rx := { s.rx with
            buf := s.rx.buf.setIfInBounds s.rx.idx.toNat b
            xor := s.rx.xor ^^^ b
            idx := s.rx.idx + 1
            state := if s.rx.idx + 1 = loNibble s.rx.hdr then .chk else .pay } }) ∨
    (s.rx.state = .chk ∧ execRxByte b s = .next (rxCheck b (take s))) ∨
    ((s.rx.state = .ready ∨ s.rx.state = .ckerr ∨ s.rx.state = .desync) ∧ execRxByte b s = .next s) := by
  cases h : s.rx.state
  case pay =>
    by_cases h15 : s.rx.idx = 15
    · simp [execRxByte, RxState.accepting, receive, rxPayload, h, h15]
    · have := s.rx.idx.isLt
      have : s.rx.idx.toNat ≠ 15 := fun e => h15 (BitVec.eq_of_toNat_eq e)
      have h' : s.rx.idx.toNat < 15 := by omega
      have hne : ¬s.rx.idx = 15#4 := h15
      simp [execRxByte, RxState.accepting, receive, rxPayload, h, hne, h', take]
  all_goals simp [execRxByte, RxState.accepting, receive, h]

/-- A receive step changes the decoder and the pending bytes, and nothing else (R140). -/
theorem execRxByte_frame {b : Byte} {s t : State} (h : execRxByte b s = .next t) :
    t = { s with rx := t.rx, pending := t.pending } := by
  rcases execRxByte_cases b s with ⟨_, e⟩ | ⟨_, e⟩ | ⟨_, e⟩ | ⟨_, _, e⟩ | ⟨_, _, e⟩ | ⟨_, e⟩ | ⟨_, e⟩ <;>
    rw [e] at h <;> cases h
  · rfl
  · unfold rxPre1; dsimp only; split <;> rfl
  all_goals rfl

/-- So does a run of receive steps. -/
theorem receiveAll_frame {bytes : List Byte} {s t : State} (h : receiveAll bytes s = .next t) :
    t = { s with rx := t.rx, pending := t.pending } := by
  induction bytes generalizing s with
  | nil => cases h; rfl
  | cons b bytes ih =>
    obtain ⟨u, hu, ht⟩ := andThen_eq_next.1 h
    rw [ih ht, execRxByte_frame hu]

end Sys2Proof.Machine
end

