-- ==== Sys2Proof/Laws/PerInstr.lean ====
section
/-! SUPPORT. The per-instruction family `EncodedForm`: what the encoder writes has the form of the instruction's row of
spec/opcode_table.json, its fixed bits among them. -/

namespace Sys2Proof.Laws.EncodedForm

/-- The form a row gives its bits: the row's match and mask, or the bytes of a frame. -/
inductive Form
  /-- format CMD -/
  | cmd (value mask : CommandWord)
  /-- format PORT, the receive port -/
  | receivePort
  /-- format PORT, the read port -/
  | readPort
  /-- format HDR -/
  | hdr (value mask : Byte)
  /-- format HDR+SUB: the header in bits 15-8, the subcode in bits 7-0 -/
  | hdrSub (value mask : BitVec 16)
  /-- format FRAME, emitted -/
  | outFrame
  /-- format FRAME, received -/
  | inFrame
  deriving DecidableEq, Repr

/-- The rows of spec/opcode_table.json. -/
def form : Instr → Form
  | .cksClr => .cmd 0x0100 0xFFFF
  | .cksAdd _ => .cmd 0x0200 0xFF00
  | .cksVerify _ => .cmd 0x0300 0xFF00
  | .txStart _ => .cmd 0x1000 0xFF0F
  | .txParam _ => .cmd 0x1100 0xFF00
  | .txSend => .cmd 0x1200 0xFFFF
  | .rxRelease => .cmd 0x2000 0xFFFF
  | .unpack _ => .cmd 0x2100 0xFFFE
  | .bcd _ => .cmd 0x3000 0xFF00
  | .rst => .cmd 0xF000 0xFFFF
  | .rxByte _ => .receivePort
  | .regRead _ => .readPort
  | .ifstatusReply _ => .hdr 0x00 0xF0
  | .ifstatusStatus _ => .hdr 0x01 0xFF
  | .progResult10 _ _ => .hdrSub 0x6310 0xFFFF
  | .progResult14 _ _ => .hdrSub 0x6314 0xFFFF
  | .progResult15 _ _ => .hdrSub 0x6315 0xFFFF
  | .progResult16 _ _ => .hdrSub 0x6316 0xFFFF
  | .progResult17 _ _ => .hdrSub 0x6317 0xFFFF
  | .trackStatus _ => .hdr 0x61 0xFF
  | .ifaceReply01 _ => .hdrSub 0xF001 0xF0FF
  | .ifaceReply02 _ => .hdrSub 0xF002 0xF0FF
  | .ifaceReply03 _ => .hdrSub 0xF003 0xF0FF
  | .accReport _ _ => .hdr 0x42 0xFF
  | .frameOut _ _ => .outFrame
  | .frameIn _ _ _ => .inFrame

/-- What the form says of the bits. A held payload is as long as its header says; a frame's last byte is the check byte of its
direction (R74, R75). -/
def Fits : Form → Encoding → Prop
  | .cmd value mask, e => ∃ w, e = .command w ∧ w &&& mask = value
  | .receivePort, e => ∃ b, e = .receive b
  | .readPort, e => ∃ a, e = .read a
  | .hdr value mask, e => ∃ ctx kind h p, e = .held ctx kind h p ∧ h &&& mask = value ∧ p.length = headerLength h
  | .hdrSub value mask, e =>
    ∃ ctx kind h sub p, e = .held ctx kind h (sub :: p) ∧ joinBytes h sub &&& mask = value ∧ p.length + 1 = headerLength h
  | .outFrame, e => ∃ h p, e = .outbound ([0xFF, 0xFE, h] ++ p ++ [xorSum p]) ∧ p.length = headerLength h
  | .inFrame, e =>
    ∃ q h p, e = .inbound ([0xFF, q, h] ++ p ++ [xorSum (h :: p)]) ∧ (q = 0xFE ∨ q = 0xFD) ∧ p.length = headerLength h

/-- The family's statement about one instruction. -/
def Statement (i : Instr) : Prop := i.WellFormed → Fits (form i) (encode i)

/-- A command word's fixed bits, when they are its whole opcode. -/
theorem command_fits (op imm : Byte) (value mask : CommandWord)
    (h : ∀ imm : Byte, joinBytes op imm &&& mask = value) : Fits (.cmd value mask) (.command (commandWord op imm)) :=
  ⟨_, rfl, h imm⟩

/-- A held frame of a payload that fits. -/
theorem held_fits {ctx : Bool} {kind : FrameKind} {c : CodeFamily} {p : List Byte} {value mask : Byte} (hp : p.length ≤ 15)
    (h : headerByte c.nibble p &&& mask = value) : Fits (.hdr value mask) (heldFrame ctx kind c p) :=
  ⟨_, _, _, _, rfl, h, (headerLength_headerByte _ hp).symm⟩

/-- A held frame whose payload starts with a subcode. -/
theorem heldSub_fits {ctx : Bool} {kind : FrameKind} {c : CodeFamily} {sub : Byte} {p : List Byte} {value mask : BitVec 16}
    (hp : p.length ≤ 14) (h : joinBytes (headerByte c.nibble (sub :: p)) sub &&& mask = value) :
    Fits (.hdrSub value mask) (heldFrame ctx kind c (sub :: p)) := by
  have hl : (sub :: p).length ≤ 15 := by rw [List.length_cons]; omega
  exact ⟨_, _, _, _, _, rfl, h, by rw [headerLength_headerByte _ hl, List.length_cons]⟩

/-- The bits of an interface header and its subcode, whatever the length nibble. -/
theorem interface_bits (p : List Byte) (sub : Byte) (value : BitVec 16)
    (h : ∀ l : Nibble, joinBytes (joinNibbles 0xF l) sub &&& 0xF0FF = value) :
    joinBytes (headerByte CodeFamily.interface.nibble p) sub &&& 0xF0FF = value := h _

/-- R76: the headers of the payload shapes whose length is fixed. -/
theorem header_length1 (c : CodeFamily) (a : Byte) : headerByte c.nibble [a] = joinNibbles c.nibble 1 := by
  simp only [headerByte, List.length_cons, List.length_nil]; rfl

theorem header_length2 (c : CodeFamily) (a b : Byte) : headerByte c.nibble [a, b] = joinNibbles c.nibble 2 := by
  simp only [headerByte, List.length_cons, List.length_nil]; rfl

theorem header_length3 (c : CodeFamily) (a b d : Byte) : headerByte c.nibble [a, b, d] = joinNibbles c.nibble 3 := by
  simp only [headerByte, List.length_cons, List.length_nil]; rfl

theorem cksClr : Statement .cksClr := fun _ => ⟨_, rfl, by decide⟩
theorem cksAdd (b : Byte) : Statement (.cksAdd b) := fun _ => command_fits _ _ _ _ (by decide)
theorem cksVerify (e : Byte) : Statement (.cksVerify e) := fun _ => command_fits _ _ _ _ (by decide)
theorem txStart (c : CodeFamily) : Statement (.txStart c) := fun _ => ⟨_, rfl, by cases c <;> decide⟩
theorem txParam (b : Byte) : Statement (.txParam b) := fun _ => command_fits _ _ _ _ (by decide)
theorem txSend : Statement .txSend := fun _ => ⟨_, rfl, by decide⟩
theorem rxRelease : Statement .rxRelease := fun _ => ⟨_, rfl, by decide⟩
theorem unpack (ctx : Bool) : Statement (.unpack ctx) := fun _ => ⟨_, rfl, by cases ctx <;> decide⟩
theorem bcd (b : Byte) : Statement (.bcd b) := fun _ => command_fits _ _ _ _ (by decide)
theorem rst : Statement .rst := fun _ => ⟨_, rfl, by decide⟩
theorem rxByte (b : Byte) : Statement (.rxByte b) := fun _ => ⟨b, rfl⟩
theorem regRead (a : Byte) : Statement (.regRead a) := fun _ => ⟨a, rfl⟩

theorem ifstatusReply (payload : List Byte) : Statement (.ifstatusReply payload) := by
  intro h
  have bits : ∀ l : Nibble, joinNibbles 0x0 l &&& 0xF0 = 0x00 := by decide
  exact held_fits h (bits _)

theorem ifstatusStatus (status : Byte) : Statement (.ifstatusStatus status) := fun _ =>
  held_fits (by simp) (by rw [header_length1]; decide)

theorem progResult10 (cvb value : Byte) : Statement (.progResult10 cvb value) := fun _ =>
  heldSub_fits (by simp) (by rw [header_length3]; decide)
theorem progResult14 (cvb value : Byte) : Statement (.progResult14 cvb value) := fun _ =>
  heldSub_fits (by simp) (by rw [header_length3]; decide)
theorem progResult15 (cvb value : Byte) : Statement (.progResult15 cvb value) := fun _ =>
  heldSub_fits (by simp) (by rw [header_length3]; decide)
theorem progResult16 (cvb value : Byte) : Statement (.progResult16 cvb value) := fun _ =>
  heldSub_fits (by simp) (by rw [header_length3]; decide)
theorem progResult17 (cvb value : Byte) : Statement (.progResult17 cvb value) := fun _ =>
  heldSub_fits (by simp) (by rw [header_length3]; decide)

theorem trackStatus (state : Byte) : Statement (.trackStatus state) := fun _ =>
  held_fits (by simp) (by rw [header_length1]; decide)

theorem ifaceReply01 (data : List Byte) : Statement (.ifaceReply01 data) := fun h =>
  heldSub_fits h (interface_bits _ _ _ (by decide))

theorem ifaceReply02 (data : List Byte) : Statement (.ifaceReply02 data) := fun h =>
  heldSub_fits h (interface_bits _ _ _ (by decide))

theorem ifaceReply03 (data : List Byte) : Statement (.ifaceReply03 data) := fun h =>
  heldSub_fits h (interface_bits _ _ _ (by decide))

theorem accReport (address flags : Byte) : Statement (.accReport address flags) := fun _ =>
  held_fits (by simp) (by rw [header_length2]; decide)

theorem frameOut (c : CodeFamily) (params : List Byte) : Statement (.frameOut c params) := fun h =>
  ⟨_, _, rfl, (headerLength_headerByte _ h).symm⟩

theorem frameIn (kind : FrameKind) (code : Nibble) (payload : List Byte) : Statement (.frameIn kind code payload) := by
  intro h
  refine ⟨loByte kind.preamble, headerByte code payload, payload, ?_, ?_, (headerLength_headerByte _ h).symm⟩
  · cases kind <;> rfl
  · cases kind
    · exact .inl rfl
    · exact .inr rfl

end Sys2Proof.Laws.EncodedForm
end

