-- ==== Sys2Proof/Laws/ReadMap.lean ====
section
/-! SUPPORT. Looking an address up in the read map, part by part (R56). -/

namespace Sys2Proof.Machine

theorem bufferRows_ofNat_inj {m n : Nat} (hm : m < 256) (hn : n < 256) :
    ((BitVec.ofNat 8 m == BitVec.ofNat 8 n) = true) ↔ m = n := by
  rw [beq_iff_eq, ← BitVec.toNat_inj, BitVec.toNat_ofNat, BitVec.toNat_ofNat]
  omega

/-- Rows at consecutive addresses from `base`: address `base + k` shows entry `k`. -/
theorem lookup_consecutive (l : List Byte) : ∀ base n : Nat, base + l.length ≤ 256 → n < 256 →
    (l.mapIdx fun i b => (BitVec.ofNat 8 (base + i), b)).lookup (BitVec.ofNat 8 n) =
      if base ≤ n then l[n - base]? else none := by
  induction l with
  | nil => intro base n _ _; simp
  | cons x l ih =>
    intro base n h hn
    rw [List.length_cons] at h
    have e : (fun (i : Nat) (b : Byte) => (BitVec.ofNat 8 (base + (i + 1)), b)) =
        fun i b => (BitVec.ofNat 8 (base + 1 + i), b) := by
      funext i b
      rw [show base + (i + 1) = base + 1 + i by omega]
    rw [List.mapIdx_cons, List.lookup_cons, Nat.add_zero]
    have step := ih (base + 1) n (by omega) hn
    rw [← e] at step
    by_cases hb : n = base
    · rw [(bufferRows_ofNat_inj hn (by omega)).2 hb]
      subst hb
      simp
    · have hne : (BitVec.ofNat 8 n == BitVec.ofNat 8 base) = false := by
        rw [Bool.eq_false_iff]
        exact fun h' => hb ((bufferRows_ofNat_inj hn (by omega)).1 h')
      rw [hne]
      simp only [step]
      by_cases hle : base + 1 ≤ n
      · rw [if_pos hle, if_pos (by omega), show n - base = n - (base + 1) + 1 by omega, List.getElem?_cons_succ]
      · rw [if_neg hle, if_neg (by omega)]

/-- A buffer's rows: address `base + i` shows entry `i`, every other address is not among them. -/
theorem lookup_bufferRows (base : Nat) (hb : base ≤ 241) (buf : Buffer) (a : Byte) :
    (bufferRows base buf).lookup a =
      if h : base ≤ a.toNat ∧ a.toNat - base < 15 then some buf[a.toNat - base] else none := by
  have e := lookup_consecutive buf.toList base a.toNat (by rw [Vector.length_toList]; omega) a.isLt
  rw [BitVec.ofNat_toNat, BitVec.setWidth_eq] at e
  rw [bufferRows, e]
  by_cases h : base ≤ a.toNat ∧ a.toNat - base < 15
  · rw [dif_pos h, if_pos h.1]
    simp [h.2]
  · rw [dif_neg h]
    by_cases h' : base ≤ a.toNat
    · rw [if_pos h', List.getElem?_eq_none]
      rw [Vector.length_toList]; omega
    · rw [if_neg h']

/-- Where a read finds its value: the five parts of the map, in order. -/
theorem regRead_eq (s : State) (a : Byte) :
    regRead s a =
      ((((((controlRows s).lookup a).or ((resultRows s.res).lookup a)).or ((bufferRows 0x20 s.rx.buf).lookup a)).or
        ((bufferRows 0x30 s.tx.buf).lookup a)).or ((bufferRows 0x40 s.res.pay).lookup a)).getD 0x00 := by
  simp only [regRead, readMap, List.lookup_append]

/-- 0x0E and above are no control rows. -/
theorem lookup_controlRows_none (s : State) {a : Byte} (h : 14 ≤ a.toNat) : (controlRows s).lookup a = none := by
  rw [List.lookup_eq_none_iff]
  intro p hp
  simp only [controlRows, List.mem_cons, List.not_mem_nil, or_false] at hp
  rw [bne_iff_ne]
  rintro rfl
  rcases hp with rfl | rfl | rfl | rfl | rfl | rfl | rfl | rfl | rfl | rfl | rfl | rfl | rfl | rfl <;>
    (simp at h)

/-- Only 0x10 to 0x19 are result rows. -/
theorem lookup_resultRows_none (r : ResultRegs) {a : Byte} (h : a.toNat < 16 ∨ 26 ≤ a.toNat) :
    (resultRows r).lookup a = none := by
  rw [List.lookup_eq_none_iff]
  intro p hp
  simp only [resultRows, List.mem_cons, List.not_mem_nil, or_false] at hp
  rw [bne_iff_ne]
  rintro rfl
  rcases hp with rfl | rfl | rfl | rfl | rfl | rfl | rfl | rfl | rfl | rfl <;> (simp at h)

end Sys2Proof.Machine
end

