-- ==== Sys2Proof/Laws/Step.lean ====
section
/-! SUPPORT. What one offer can do, and runs of offers without their bookkeeping. -/

namespace Sys2Proof.Machine

/-- The ten kinds of legal command words (R79). -/
theorem decodeCommand_cases {w : CommandWord} {i : Instr} (h : decodeCommand w = .ok i) :
    (i = .cksClr ∧ w = commandWord 0x01 0x00) ∨ (∃ b, i = .cksAdd b ∧ w = commandWord 0x02 b) ∨
    (∃ e, i = .cksVerify e ∧ w = commandWord 0x03 e) ∨ (∃ c, i = .txStart c ∧ w = commandWord 0x10 c.wholeByte) ∨
    (∃ b, i = .txParam b ∧ w = commandWord 0x11 b) ∨ (i = .txSend ∧ w = commandWord 0x12 0x00) ∨
    (i = .rxRelease ∧ w = commandWord 0x20 0x00) ∨
    (∃ ctx, i = .unpack ctx ∧ w = commandWord 0x21 (if ctx then 0x01 else 0x00)) ∨
    (∃ b, i = .bcd b ∧ w = commandWord 0x30 b) ∨ (i = .rst ∧ w = commandWord 0xF0 0x00) := by
  have hw := joinBytes_hi_lo w
  unfold decodeCommand withoutOperand decodeTxStart at h
  dsimp only at h
  generalize hiByte w = op at h hw
  generalize loByte w = imm at h hw
  subst hw
  split at h
  · split at h <;> cases h
    subst_vars; exact .inl ⟨rfl, rfl⟩
  split at h
  · cases h; subst_vars; exact .inr (.inl ⟨_, rfl, rfl⟩)
  split at h
  · cases h; subst_vars; exact .inr (.inr (.inl ⟨_, rfl, rfl⟩))
  split at h
  · split at h
    · split at h <;> cases h
      rename_i hop hl _ c hc
      rw [ofNibble_eq_some] at hc
      refine .inr (.inr (.inr (.inl ⟨_, rfl, ?_⟩)))
      rw [CodeFamily.wholeByte, ← hc, ← hl, joinNibbles_hi_lo, hop, commandWord]
    · cases h
  split at h
  · cases h; subst_vars; exact .inr (.inr (.inr (.inr (.inl ⟨_, rfl, rfl⟩))))
  split at h
  · split at h <;> cases h
    subst_vars; exact .inr (.inr (.inr (.inr (.inr (.inl ⟨rfl, rfl⟩)))))
  split at h
  · split at h <;> cases h
    subst_vars; exact .inr (.inr (.inr (.inr (.inr (.inr (.inl ⟨rfl, rfl⟩))))))
  split at h
  · refine .inr (.inr (.inr (.inr (.inr (.inr (.inr (.inl ?_)))))))
    split at h
    · cases h; subst_vars; exact ⟨false, rfl, rfl⟩
    split at h <;> cases h
    subst_vars; exact ⟨true, rfl, rfl⟩
  split at h
  · cases h; subst_vars; exact .inr (.inr (.inr (.inr (.inr (.inr (.inr (.inr (.inl ⟨_, rfl, rfl⟩))))))))
  split at h
  · split at h <;> cases h
    subst_vars; exact .inr (.inr (.inr (.inr (.inr (.inr (.inr (.inr (.inr ⟨rfl, rfl⟩))))))))
  · cases h

/-! ### The words of the commands -/

@[simp] theorem decodeCommand_cksClr : decodeCommand (commandWord 0x01#8 0x00#8) = .ok .cksClr := by decide
@[simp] theorem decodeCommand_txSend : decodeCommand (commandWord 0x12#8 0x00#8) = .ok .txSend := by decide
@[simp] theorem decodeCommand_rxRelease : decodeCommand (commandWord 0x20#8 0x00#8) = .ok .rxRelease := by decide
@[simp] theorem decodeCommand_rst : decodeCommand (commandWord 0xF0#8 0x00#8) = .ok .rst := by decide
@[simp] theorem decodeCommand_cksAdd (b : Byte) : decodeCommand (commandWord 0x02#8 b) = .ok (.cksAdd b) := by
  simp [decodeCommand, commandWord]
@[simp] theorem decodeCommand_cksVerify (e : Byte) : decodeCommand (commandWord 0x03#8 e) = .ok (.cksVerify e) := by
  simp [decodeCommand, commandWord]
@[simp] theorem decodeCommand_txStart (c : CodeFamily) :
    decodeCommand (commandWord 0x10#8 c.wholeByte) = .ok (.txStart c) := by cases c <;> decide
@[simp] theorem decodeCommand_txParam (b : Byte) : decodeCommand (commandWord 0x11#8 b) = .ok (.txParam b) := by
  simp [decodeCommand, commandWord]
@[simp] theorem decodeCommand_bcd (b : Byte) : decodeCommand (commandWord 0x30#8 b) = .ok (.bcd b) := by
  simp [decodeCommand, commandWord]
@[simp] theorem decodeCommand_unpack (ctx : Bool) :
    decodeCommand (commandWord 0x21#8 (if ctx then 0x01#8 else 0x00#8)) = .ok (.unpack ctx) := by cases ctx <;> decide

/-! ### What one offer can do -/

/-- The state with another list of offers. -/
def State.withOffers (os : List Offer) (s : State) : State := { s with offers := os }

/-- An outcome with another list of offers. -/
def Result.withOffers (os : List Offer) (r : Result) : Result := andThen r fun s => .next (s.withOffers os)

theorem execRxByte_withOffers (b : Byte) (os : List Offer) (s : State) :
    execRxByte b (s.withOffers os) = Result.withOffers os (execRxByte b s) := by
  cases h : s.rx.state
  case pay =>
    by_cases h15 : s.rx.idx = 15#4 <;>
      simp [execRxByte, receive, rxPayload, State.withOffers, Result.withOffers, take, h, h15, RxState.accepting]
  case pre1 =>
    cases hp : FrameKind.ofPreamble (joinBytes (hiByte s.rx.pre) b) <;>
      simp [execRxByte, receive, rxPre1, State.withOffers, Result.withOffers, take, h, hp, RxState.accepting]
  case chk =>
    by_cases hb : b = s.rx.xor <;>
      simp [execRxByte, receive, rxCheck, State.withOffers, Result.withOffers, take, h, hb, RxState.accepting]
  all_goals
    simp [execRxByte, receive, rxPre0, rxHeader, State.withOffers, Result.withOffers, take, h, RxState.accepting]

/-- A command's effect does not depend on the offers still to come, and leaves them alone. -/
theorem exec_command_withOffers {w : CommandWord} {i : Instr} (h : decodeCommand w = .ok i) (os : List Offer) (s : State) :
    exec i (s.withOffers os) = Result.withOffers os (exec i s) := by
  rcases decodeCommand_cases h with ⟨rfl, _⟩ | ⟨_, rfl, _⟩ | ⟨_, rfl, _⟩ | ⟨_, rfl, _⟩ | ⟨_, rfl, _⟩ | ⟨rfl, _⟩ |
    ⟨rfl, _⟩ | ⟨_, rfl, _⟩ | ⟨_, rfl, _⟩ | ⟨rfl, _⟩
  case inr.inr.inr.inr.inl =>
    by_cases hi : s.tx.state = .idle
    · simp [exec, execTxParam, State.withOffers, Result.withOffers, hi, raise]
    · by_cases h15 : s.tx.cnt = 15#4 <;>
        simp [exec, execTxParam, State.withOffers, Result.withOffers, hi, h15, raise, complete]
  case inr.inr.inr.inr.inr.inl =>
    by_cases hi : s.tx.state = .idle <;>
      simp [exec, execTxSend, sendFrame, State.withOffers, Result.withOffers, hi, raise, complete, emit]
  case inr.inr.inr.inr.inr.inr.inl =>
    by_cases hh : s.rx.state = .ready ∨ s.rx.state = .ckerr <;>
      simp [exec, execRxRelease, State.withOffers, Result.withOffers, hh, raise, complete]
  case inr.inr.inr.inr.inr.inr.inr.inl ctx _ =>
    by_cases hc : s.rx.state = .ckerr
    · simp [exec, execUnpack, unpackHeld, State.withOffers, Result.withOffers, hc, raise, clearResult]
    · by_cases hr : s.rx.state = .ready
      · cases hd : dispatch s.cfg (hiNibble s.rx.hdr) s.rx.payload s.rx.kind ctx <;>
          simp [exec, execUnpack, unpackHeld, State.withOffers, Result.withOffers, hr, hd, raise, clearResult, complete,
            writeResult]
      · simp [exec, execUnpack, unpackHeld, State.withOffers, Result.withOffers, hc, hr, raise, clearResult]
  all_goals rfl

theorem perform_withOffers (o : Offer) (os : List Offer) (s : State) :
    perform o (s.withOffers os) = Result.withOffers os (perform o s) := by
  cases o with
  | command w =>
    cases h : decodeCommand w with
    | ok i => simp only [perform, h]; exact exec_command_withOffers h os s
    | error _ => simp only [perform, h]; rfl
  | receive =>
    simp only [perform, State.withOffers]
    split
    · rfl
    · exact execRxByte_withOffers _ os s
  | read a => rfl
  | arrive b => rfl
  | resetInput => rfl

theorem State.withOffers_self (s : State) : s.withOffers s.offers = s := rfl

/-- What an offer does leaves the offers still to come alone. -/
theorem perform_offers {o : Offer} {s t : State} (h : perform o s = .next t) : t.offers = s.offers := by
  have := perform_withOffers o s.offers s
  rw [State.withOffers_self, h] at this
  have e : t = t.withOffers s.offers := by simpa [Result.withOffers] using this
  rw [e]; rfl

/-! ### Steps and runs -/

theorem step_nil {s : State} (h : s.offers = []) : step s = .next s := by
  unfold step; rw [h]

theorem step_cons {s : State} {o : Offer} {later : List Offer} (h : s.offers = o :: later) :
    step s = perform o (s.withOffers later) := by
  unfold step; rw [h]; rfl

/-- A step with an offer is what the offer does. -/
theorem step_eq_next {s t : State} (h : step s = .next t) :
    (s.offers = [] ∧ t = s) ∨
    ∃ o later u, s.offers = o :: later ∧ perform o s = .next u ∧ t = u.withOffers later := by
  cases ho : s.offers with
  | nil => rw [step_nil ho] at h; cases h; exact .inl ⟨rfl, rfl⟩
  | cons o later =>
    rw [step_cons ho, perform_withOffers] at h
    obtain ⟨u, hu, ht⟩ := andThen_eq_next.1 h
    cases ht
    exact .inr ⟨o, later, u, rfl, hu, rfl⟩

theorem run_zero (s : State) : Sys2Proof.core.run 0 s = .next s := rfl

theorem run_succ (n : Nat) (s : State) :
    Sys2Proof.core.run (n + 1) s = andThen (step s) fun t => Sys2Proof.core.run n t := by
  cases h : step s <;>
    · have h' : Sys2Proof.core.step s = _ := h
      simp only [Host.Core.run, h']
      rfl

/-- The offers, one after the other, without the list they stand in. -/
def performAll : List Offer → State → Result
  | [], s => .next s
  | o :: os, s => andThen (perform o s) (performAll os)

/-- A run of offers is what the offers do, one after the other. -/
theorem runs_eq_performAll (os : List Offer) (s : State) : runs os s = performAll os s := by
  induction os generalizing s with
  | nil => rfl
  | cons o os ih =>
    have hs : step { s with offers := (o :: os) ++ s.offers } = perform o (s.withOffers (os ++ s.offers)) :=
      step_cons rfl
    rw [runs, List.length_cons, run_succ, hs, perform_withOffers, performAll]
    cases h : perform o s with
    | next t =>
      have e := perform_offers h
      show Sys2Proof.core.run os.length (t.withOffers (os ++ s.offers)) = performAll os t
      rw [← ih, runs, ← e]; rfl
    | fault e => rfl
    | refused r => rfl

theorem receives_eq_performAll (n : Nat) (s : State) : receives n s = performAll (List.replicate n .receive) s := by
  rw [← runs_eq_performAll, runs, receives, List.length_replicate]

theorem performAll_append (os os' : List Offer) (s : State) :
    performAll (os ++ os') s = andThen (performAll os s) (performAll os') := by
  induction os generalizing s with
  | nil => rfl
  | cons o os ih =>
    rw [List.cons_append, performAll, performAll]
    cases perform o s <;> simp [ih]

/-- Receive offers for the first pending bytes are their receive steps, as long as the decoder accepts them all. -/
theorem perform_receive {s : State} {b : Byte} {more : List Byte} (h : s.pending = b :: more) :
    perform .receive s = execRxByte b s := by
  simp only [perform, h]; rfl

end Sys2Proof.Machine
end

