-- ==== Sys2Proof/Tests/Slice0.lean ====
section
/-! SUPPORT. Tests of the model against values taken from spec/95_test_vectors.md and from words written out from
spec/30_encoding.md, and for every statement with hypotheses a state and operands that meet them. -/

namespace Sys2Proof.Tests

open Sys2Proof.Machine

/-! ### Helpers -/

/-- The outcome is a next state with a property. -/
def gives (r : Result) (p : State → Bool) : Bool :=
  match r with
  | .next t => p t
  | .fault _ => false
  | .refused _ => false

/-- From reset, the decoder in a given state with a given header, index and running checksum. -/
def decoding (st : RxState) (hdr : Byte) (idx : BitVec 4) (xor : Byte) (pending : List Byte) : State :=
  { State.reset with rx := { DecoderRegs.reset with state := st, pre := 0xFFFE, hdr := hdr, idx := idx, xor := xor }, pending := pending }

/-- From reset, a frame held READY. -/
def holding (kind : FrameKind) (hdr : Byte) (payload : List Byte) : State :=
  { State.reset with rx := readyFrame kind hdr payload .reset }

/-- From reset, a frame under construction. -/
def building (code : Nibble) (params : List Byte) : State :=
  { State.reset with tx := builtFrame code params .reset }

/-- From reset, bytes pending. -/
def pendingOnly (bytes : List Byte) : State := { State.reset with pending := bytes }

/-- 15 bytes, 01 to 0F. -/
def fifteen : List Byte := [1, 2, 3, 4, 5, 6, 7, 8, 9, 10, 11, 12, 13, 14, 15]

/-! ### WellFormed: an ill-formed term for each check -/

theorem test_wf_ifstatusReply_16_bytes : ¬ (Instr.ifstatusReply (0x10 :: fifteen)).WellFormed := by decide
theorem test_wf_ifaceReply01_15_bytes : ¬ (Instr.ifaceReply01 fifteen).WellFormed := by decide
theorem test_wf_ifaceReply02_15_bytes : ¬ (Instr.ifaceReply02 fifteen).WellFormed := by decide
theorem test_wf_ifaceReply03_15_bytes : ¬ (Instr.ifaceReply03 fifteen).WellFormed := by decide
theorem test_wf_frameOut_16_params : ¬ (Instr.frameOut .loco (0x10 :: fifteen)).WellFormed := by decide
theorem test_wf_frameIn_16_bytes : ¬ (Instr.frameIn .direct 0x3 (0x10 :: fifteen)).WellFormed := by decide
theorem test_wf_frameOut_15_params : (Instr.frameOut .loco fifteen).WellFormed := by decide

/-! ### Decoding: words written out bit by bit from R71, R79 -/

theorem test_decode_cksClr : decode (.command 0b00000001_00000000) = .ok .cksClr := by decide
theorem test_decode_cksAdd : decode (.command 0b00000010_11001000) = .ok (.cksAdd 0xC8) := by decide
theorem test_decode_cksVerify : decode (.command 0b00000011_10111110) = .ok (.cksVerify 0xBE) := by decide
theorem test_decode_txStart : decode (.command 0b00010000_11100000) = .ok (.txStart .loco) := by decide
theorem test_decode_txParam : decode (.command 0b00010001_00010101) = .ok (.txParam 0x15) := by decide
theorem test_decode_txSend : decode (.command 0b00010010_00000000) = .ok .txSend := by decide
theorem test_decode_rxRelease : decode (.command 0b00100000_00000000) = .ok .rxRelease := by decide
theorem test_decode_unpack : decode (.command 0b00100001_00000001) = .ok (.unpack true) := by decide
theorem test_decode_bcd : decode (.command 0b00110000_10011111) = .ok (.bcd 0x9F) := by decide
theorem test_decode_rst : decode (.command 0b11110000_00000000) = .ok .rst := by decide
theorem test_decode_rxByte : decode (.receive 0b11111110) = .ok (.rxByte 0xFE) := by decide
theorem test_decode_regRead : decode (.read 0b00010010) = .ok (.regRead 0x12) := by decide
theorem test_decode_ifstatusReply :
    decode (.held true .broadcast 0b0000_0010 [0x36, 0x21]) = .ok (.ifstatusReply [0x36, 0x21]) := by decide
theorem test_decode_ifstatusStatus : decode (.held false .broadcast 0b0000_0001 [0x80]) = .ok (.ifstatusStatus 0x80) := by
  decide
theorem test_decode_progResult10 :
    decode (.held true .direct 0b0110_0011 [0b00010000, 0x05, 0xC8]) = .ok (.progResult10 0x05 0xC8) := by decide
theorem test_decode_progResult14 :
    decode (.held false .direct 0b0110_0011 [0b00010100, 0x00, 0x4D]) = .ok (.progResult14 0x00 0x4D) := by decide
theorem test_decode_progResult15 :
    decode (.held false .direct 0b0110_0011 [0b00010101, 0x00, 0x2A]) = .ok (.progResult15 0x00 0x2A) := by decide
theorem test_decode_progResult16 :
    decode (.held false .direct 0b0110_0011 [0b00010110, 0xFF, 0x00]) = .ok (.progResult16 0xFF 0x00) := by decide
theorem test_decode_progResult17 :
    decode (.held false .direct 0b0110_0011 [0b00010111, 0x03, 0x09]) = .ok (.progResult17 0x03 0x09) := by decide
theorem test_decode_trackStatus : decode (.held false .broadcast 0b0110_0001 [0x01]) = .ok (.trackStatus 0x01) := by decide
theorem test_decode_ifaceReply01 :
    decode (.held false .direct 0b1111_0010 [0b00000001, 0x05]) = .ok (.ifaceReply01 [0x05]) := by decide
theorem test_decode_ifaceReply02 :
    decode (.held true .broadcast 0b1111_0011 [0b00000010, 0x10, 0x20]) = .ok (.ifaceReply02 [0x10, 0x20]) := by decide
theorem test_decode_ifaceReply03 : decode (.held false .direct 0b1111_0001 [0b00000011]) = .ok (.ifaceReply03 []) := by decide
theorem test_decode_accReport : decode (.held false .direct 0b0100_0010 [0x05, 0x93]) = .ok (.accReport 0x05 0x93) := by decide
theorem test_decode_frameOut :
    decode (.outbound [0b11111111, 0b11111110, 0b0010_0010, 0x15, 0x01, 0x14]) = .ok (.frameOut .programming [0x15, 0x01]) := by
  decide
theorem test_decode_frameIn :
    decode (.inbound [0b11111111, 0b11111101, 0b0110_0001, 0x01, 0x60]) = .ok (.frameIn .broadcast 0x6 [0x01]) := by decide

/-! Refused by name: S1, S4, E12, S6, and frames of U8, U14, U15, U20, U24, U31, U32, U33, E1 read inbound, D-9. -/

theorem test_refuse_opcode_00 : decode (.command 0x0000) = .error .unlistedOpcode := by decide
theorem test_refuse_cksClr_imm : decode (.command 0x0101) = .error .reservedOperand := by decide
theorem test_refuse_txStart_code_7 : decode (.command 0x1070) = .error .codeNotInCodeset := by decide
theorem test_refuse_unpack_2 : decode (.command 0x2102) = .error .reservedOperand := by decide
theorem test_refuse_subcode_11 : decode (.held false .direct 0x63 [0x11, 0x01, 0x02]) = .error .statusSubcode := by decide
theorem test_refuse_direct_track_status : decode (.held false .direct 0x61 [0x01]) = .error .statusShape := by decide
theorem test_refuse_broadcast_prog_result :
    decode (.held false .broadcast 0x63 [0x10, 0x05, 0xC8]) = .error .statusShape := by decide
theorem test_refuse_accessory_length_1 : decode (.held false .direct 0x41 [0x05]) = .error .accessoryLength := by decide
theorem test_refuse_ifstatus_length_2 : decode (.held false .direct 0x02 [0x36, 0x21]) = .error .ifstatusLength := by decide
theorem test_refuse_interface_empty : decode (.held false .direct 0xF0 []) = .error .interfaceSubcode := by decide
theorem test_refuse_interface_subcode_04 : decode (.held false .direct 0xF2 [0x04, 0x05]) = .error .interfaceSubcode := by
  decide
theorem test_refuse_programming_held : decode (.held false .direct 0x22 [0x15, 0x01]) = .error .codeNotInTable := by decide
theorem test_refuse_short_payload : decode (.held false .direct 0x63 [0x10, 0x05]) = .error .lengthMismatch := by decide
theorem test_refuse_outbound_frame_inbound :
    decode (.inbound [0xFF, 0xFE, 0x22, 0x15, 0x01, 0x14]) = .error .wrongCheckByte := by decide
theorem test_refuse_swapped_preamble : decode (.inbound [0xFE, 0xFF, 0x00, 0x00]) = .error .unrecognizedPreamble := by decide

/-! ### The opcode table's words, and placing them for the next step -/

theorem test_tableWord_command : decodeTableWord 16 0x02C8 = some (.cksAdd 0xC8) := by decide
theorem test_tableWord_hdrSub : decodeTableWord 16 0x6310 = some (.progResult10 0x00 0x00) := by decide
theorem test_tableWord_interface : decodeTableWord 16 0xF202 = some (.ifaceReply02 [0x00]) := by decide
theorem test_tableWord_hdr : decodeTableWord 8 0x42 = some (.accReport 0x00 0x00) := by decide
theorem test_tableWord_port : decodeTableWord 8 0xA7 = some (.rxByte 0xA7) := by decide
theorem test_tableWord_frame : decodeTableWord 32 0x0000FEFF = some (.frameIn .direct 0x0 []) := by decide

theorem test_fetch_command : gives (step (State.reset.withFetchWord 16 0x305A)) fun t => t.bcd.hi = 5 ∧ t.bcd.lo = 10 := by
  decide
theorem test_fetch_track_status :
    gives (step (State.reset.withFetchWord 8 0x61)) fun t => t.res.kind = .trackStatus ∧ t.res.bcst = true := by decide
theorem test_fetch_accessory : gives (step (State.reset.withFetchWord 8 0x42)) fun t => t.res.kind = .accState := by decide
theorem test_fetch_byte : gives (step (State.reset.withFetchWord 8 0xA7)) fun t => t.rx.pre = 0xA700 ∧ t.pending = [] := by
  decide
theorem test_fetch_frame : gives (step (State.reset.withFetchWord 32 0x0000FEFF)) fun t => t.rx.state = .pre1 := by decide

/-! ### Results -/

/-- K11: CKS_EQ unchanged. -/
theorem test_cksClr :
    gives (exec .cksClr { State.reset with cks := { acc := 0x5A, eq := true } }) fun t =>
      t.cks.acc = 0x00 ∧ t.cks.eq = true ∧ t.opst = .ok := by decide

/-- K13. -/
theorem test_cksAdd : gives (exec (.cksAdd 0x10) { State.reset with cks := { acc := 0x63, eq := false } }) fun t =>
    t.cks.acc = 0x73 := by decide

/-- K8. -/
theorem test_cksVerify_equal :
    gives (exec (.cksVerify 0xBE) { State.reset with cks := { acc := 0xBE, eq := false } }) fun t =>
      t.cks.eq = true ∧ t.cks.acc = 0xBE := by decide

/-- K9: a mismatch is a result, not an error. -/
theorem test_cksVerify_different :
    gives (exec (.cksVerify 0xBF) { State.reset with cks := { acc := 0xBE, eq := true } }) fun t =>
      t.cks.eq = false ∧ t.opst = .ok := by decide

/-- K6, K7. -/
theorem test_xorSum_fifteen : xorSum fifteen = 0x00 ∧ xorSum (fifteen ++ [0x10]) = 0x10 := by decide

/-- E14: the first frame is dropped, TX_BUF[0] kept. -/
theorem test_txStart : gives (exec (.txStart .accessoryReport) (building 0x2 [0x01])) fun t =>
    t.tx.state = .build ∧ t.tx.code = 0x4 ∧ t.tx.cnt = 0 ∧ t.tx.xor = 0x00 ∧ t.tx.buf[0] = 0x01 ∧ t.sent = [] := by decide

/-- P2, step 3. -/
theorem test_txParam : gives (exec (.txParam 0x01) (building 0x2 [0x15])) fun t =>
    t.tx.buf[1] = 0x01 ∧ t.tx.cnt = 2 ∧ t.tx.xor = 0x14 := by decide

/-- E4: the 16th param. -/
theorem test_txParam_sixteenth : gives (exec (.txParam 0x10) (building 0xF fifteen)) fun t =>
    t.opst.code = 0x02 ∧ t.tx.state = .idle ∧ t.tx.cnt = 15 ∧ t.tx.buf.toList = fifteen := by decide

/-- E1. -/
theorem test_txSend : gives (exec .txSend (building 0x2 [0x15, 0x01])) fun t =>
    t.sent = [0xFF, 0xFE, 0x22, 0x15, 0x01, 0x14] ∧ t.tx.state = .idle ∧ t.tx.cnt = 2 ∧ t.tx.xor = 0x14 := by decide

/-- E8. -/
theorem test_txSend_idle : gives (exec .txSend State.reset) fun t => t.opst.code = 0x06 ∧ t.sent = [] := by decide

/-- E16. -/
theorem test_frameOut : gives (exec (.frameOut .interface [0x01, 0x02, 0x03, 0x04]) (building 0xF [])) fun t =>
    t.sent = [0xFF, 0xFE, 0xF4, 0x01, 0x02, 0x03, 0x04, 0x04] := by decide

/-- D-9. -/
theorem test_rxByte_desync :
    gives (exec (.rxByte 0xFF) { pendingOnly [0xFF] with rx := { DecoderRegs.reset with state := .pre1, pre := 0xFE00 } })
      fun t => t.rx.state.bits = 7 ∧ t.rx.pre = 0xFEFF ∧ t.rx.kind = .direct := by decide

/-- D-2, the last byte. -/
theorem test_rxByte_ckerr : gives (exec (.rxByte 0xBF) (decoding .chk 0x63 3 0xBE [0xBF])) fun t =>
    t.rx.state.bits = 6 ∧ t.rx.xor = 0xBE ∧ t.rx.chk = 0xBF := by decide

/-- D-8: 15 payload bytes. -/
theorem test_frameIn :
    gives (exec (.frameIn .direct 0x0 [16, 17, 18, 19, 20, 21, 22, 23, 24, 25, 26, 27, 28, 29, 30])
      (pendingOnly ([0xFF, 0xFE, 0x0F, 16, 17, 18, 19, 20, 21, 22, 23, 24, 25, 26, 27, 28, 29, 30] ++ [0x10])))
      fun t => t.rx.state = .ready ∧ t.rx.idx = 15 ∧ t.rx.chk = 0x10 ∧ t.pending = [] := by decide

/-- D-17. -/
theorem test_rxRelease :
    gives (exec .rxRelease { State.reset with
      rx := { DecoderRegs.reset with state := .ckerr, xor := 0xBE, chk := 0xBF } })
      fun t => t.rx.state = .pre0 ∧ t.rx.xor = 0xBE ∧ t.rx.chk = 0xBF ∧ t.opst = .ok := by decide

/-- D-16. -/
theorem test_rxRelease_noFrame : gives (exec .rxRelease State.reset) fun t => t.opst.code = 0x04 ∧ t.rx.state = .pre0 := by
  decide

/-- U1. -/
theorem test_unpack : gives (exec (.unpack false) (holding .direct 0x63 [0x10, 0x05, 0xC8])) fun t =>
    t.res.kind.bits = 2 ∧ t.res.code = 0x60 ∧ t.res.cv = 5 ∧ t.res.value = 200 ∧ t.opst = .ok := by decide

/-- U32. -/
theorem test_unpack_unknown : gives (exec (.unpack false) (holding .direct 0xF2 [0x04, 0x05])) fun t =>
    t.opst.code = 0x03 ∧ t.res = .reset := by decide

/-- U23. -/
theorem test_ifstatusReply : gives (exec (.ifstatusReply [0x36, 0x21]) (holding .direct 0x02 [0x36, 0x21])) fun t =>
    t.res.stkind = false ∧ t.res.plen = 2 ∧ t.res.pay[0] = 0x36 ∧ t.res.pay[1] = 0x21 ∧ t.res.pay[2] = 0x00 := by decide

/-- U27. -/
theorem test_ifstatusStatus : gives (exec (.ifstatusStatus 0x80) (holding .broadcast 0x01 [0x80])) fun t =>
    t.res.status = 0x80 ∧ t.res.plen = 1 ∧ t.res.pay[0] = 0x80 ∧ regRead t 0x12 = 0x03 := by decide

/-- U9. -/
theorem test_progResult10 : gives (exec (.progResult10 0x00 0x00) (holding .direct 0x63 [0x10, 0x00, 0x00])) fun t =>
    t.opst = .ok ∧ t.res.cv = 0 := by decide

/-- U2. -/
theorem test_progResult14 : gives (exec (.progResult14 0x00 0x4D) (holding .direct 0x63 [0x14, 0x00, 0x4D])) fun t =>
    regRead t 0x14 = 0x04 ∧ regRead t 0x15 = 0x00 ∧ t.res.value = 77 := by decide

/-- U4. -/
theorem test_progResult15 : gives (exec (.progResult15 0x00 0x2A) (holding .direct 0x63 [0x15, 0x00, 0x2A])) fun t =>
    t.res.cv = 256 ∧ t.res.value = 42 := by decide

/-- U5. -/
theorem test_progResult16 : gives (exec (.progResult16 0xFF 0x00) (holding .direct 0x63 [0x16, 0xFF, 0x00])) fun t =>
    regRead t 0x14 = 0x02 ∧ regRead t 0x15 = 0xFF := by decide

/-- U7. -/
theorem test_progResult17 : gives (exec (.progResult17 0xFF 0xFF) (holding .direct 0x63 [0x17, 0xFF, 0xFF])) fun t =>
    t.res.cv = 1023 ∧ t.res.value = 255 := by decide

/-- U10. -/
theorem test_trackStatus : gives (exec (.trackStatus 0x01) (holding .broadcast 0x61 [0x01])) fun t =>
    t.res.kind.bits = 4 ∧ regRead t 0x12 = 0x42 ∧ t.res.code = 0x60 := by decide

/-- U12, U13, with R7's printed parameters. -/
theorem test_trackStatus_parameters :
    gives (exec (.trackStatus 0x02) (holding .broadcast 0x61 [0x02])) (fun t => regRead t 0x12 = 0x82) ∧
    gives (exec (.trackStatus 0x03) (holding .broadcast 0x61 [0x03])) (fun t => t.opst.code = 0x03) := by decide

/-- U28. -/
theorem test_ifaceReply01 : gives (exec (.ifaceReply01 [0x05]) (holding .direct 0xF2 [0x01, 0x05])) fun t =>
    t.res.code = 0xF0 ∧ t.res.plen = 1 ∧ t.res.pay[0] = 0x05 ∧ t.res.stkind = false := by decide

/-- U29. -/
theorem test_ifaceReply02 : gives (exec (.ifaceReply02 [0x10, 0x20]) (holding .direct 0xF3 [0x02, 0x10, 0x20])) fun t =>
    t.res.plen = 2 ∧ t.res.pay[1] = 0x20 := by decide

/-- U30. -/
theorem test_ifaceReply03 : gives (exec (.ifaceReply03 []) (holding .direct 0xF1 [0x03])) fun t =>
    t.res.kind.bits = 1 ∧ t.res.plen = 0 := by decide

/-- U19, with ACC_UNDET_BIT = 6. -/
theorem test_accReport : gives (exec (.accReport 0x7F 0x60) (holding .broadcast 0x42 [0x7F, 0x60])) fun t =>
    t.res.addr = 0x7F ∧ t.res.akind = .reserved ∧ t.res.statev = 0 ∧ regRead t 0x12 = 0x36 := by decide

/-- U19, with ACC_UNDET_BIT = 7. -/
theorem test_accReport_bit7 :
    gives (exec (.accReport 0x7F 0x60)
      { holding .broadcast 0x42 [0x7F, 0x60] with cfg := { Config.default with accUndetBit := 7 } })
      fun t => t.res.undet = false ∧ t.res.akind = .reserved := by decide

/-- B4. -/
theorem test_bcd : gives (exec (.bcd 0x9F) State.reset) fun t => t.bcd.hi = 9 ∧ t.bcd.lo = 15 ∧ t.opst = .ok := by decide

/-- S8. -/
theorem test_rst : gives (exec .rst { building 0x6 [0x01] with cks := { acc := 0x5A, eq := true } }) fun t =>
    t = State.reset := by decide

/-- P5, step 4. -/
theorem test_regRead :
    gives (exec (.regRead 0x00) { building 0x6 [] with rx := { DecoderRegs.reset with state := .desync, pre := 0xFF00 } })
      fun t => t.readLog = [(0x00, 0x17)] := by decide

/-- S11. -/
theorem test_regRead_unmapped : regRead (building 0x6 fifteen) 0x3E = 0x0F ∧ regRead (building 0x6 fifteen) 0x3F = 0x00 := by
  decide

/-- S4: an illegal word. -/
theorem test_illegal_word : gives (step { State.reset with cks := { acc := 0x5A, eq := false }, offers := [.command 0x0101] })
    fun t => t.opst.code = 0x01 ∧ t.cks.acc = 0x5A := by decide

/-- The model's one stop: a state that no run reaches. -/
theorem test_stop_rxIndex : step { decoding .pay 0x6F 15 0x00 [0x01] with offers := [.receive] } = .fault .rxIndexOutOfRange := by
  rfl

/-- R83: `tx.start 60` is 0x1060, and `unpack 2` is no line. -/
theorem test_assemble : assemble "tx.start" (some 0x60) = some 0x1060 ∧ assemble "unpack" (some 0x02) = none := by decide

/-- R84: `tx.frame 20, 15, 01`. -/
theorem test_pseudo_txFrame :
    commandOffers (Pseudo.txFrame .programming [0x15, 0x01]).expand =
      [.command 0x1020, .command 0x1115, .command 0x1101, .command 0x1200] := by decide

/-! ### Witnesses: what the statements assume can hold, all of it together, clause by clause -/

theorem witness_DecodeAfterEncode :
    (Instr.ifstatusReply fifteen).WellFormed ∧ (Instr.ifaceReply03 (fifteen.drop 1)).WellFormed ∧
    (Instr.frameIn .broadcast 0x3 fifteen).WellFormed := by decide

theorem witness_DecodingIsWellFormed :
    decode (.held true .direct 0x0F fifteen) = .ok (.ifstatusReply fifteen) ∧
    decodeHeld false .direct 0xFF fifteen = .ok (.ifaceReply01 (fifteen.drop 1)) := by decide

theorem witness_ChecksumLaws : ([0x12, 0x34, 0x56] : List Byte).Perm [0x56, 0x12, 0x34] ∧ (0x00 : Byte) ≠ 0xFF := by decide

/-- A receive step, a read and an arriving byte between the commands. -/
theorem witness_ChecksumSequence :
    State.reset.rx.Inv ∧
    Offer.resetInput ∉ [Offer.receive, .command 0x0100, .command 0x02FF, .arrive 0x01, .read 0x0B, .command 0x03FF] ∧
    [Offer.receive, .command 0x0100, .command 0x02FF, .arrive 0x01].filter Offer.isCommand =
      .command 0x0100 :: [0xFF#8].map (fun b => .command (0x02#8 ++ b)) ∧
    [Offer.receive, .command 0x0100, .command 0x02FF, .arrive 0x01, .read 0x0B, .command 0x03FF].filter Offer.isCommand =
      .command 0x0100 :: [0xFF#8].map (fun b => .command (0x02#8 ++ b)) ++ [.command (0x03#8 ++ 0xFF#8)] := by decide

theorem witness_TxStart :
    loNibble 0x21 ≠ 0 ∧ hiNibble 0x10 ∉ [0x0#4, 0x2, 0x4, 0x5, 0x6, 0x8, 0xE, 0xF] := by decide

theorem witness_TxParam :
    State.reset.tx.state = .idle ∧ (building 0xF fifteen).tx.state = .build ∧ (building 0xF fifteen).tx.cnt = 15 ∧
    (building 0xF (fifteen.drop 1)).tx.state = .build ∧ (building 0xF (fifteen.drop 1)).tx.cnt ≠ 15 := by decide

theorem witness_TxSend : State.reset.tx.state = .idle ∧ (building 0x2 [0x15, 0x01]).tx.state = .build := by decide

theorem witness_FrameOut :
    fifteen.length ≤ 15 ∧ (building 0x8 fifteen).tx.state = .build ∧ State.reset.tx.state = .idle ∧
    (building 0x8 fifteen).tx.Inv := by decide

/-- TX_START 0xE0, as the statement writes it. -/
def startLoco : Offer := .command (0x10#8 ++ (CodeFamily.loco.nibble ++ 0x0#4))

/-- The TX_PARAMs, as the statement writes them. -/
def paramOffers (params : List Byte) : List Offer := params.map fun p => .command (0x11#8 ++ p)

/-- A whole frame's commands with other steps between them. -/
def frameOffers (params : List Byte) : List Offer :=
  [.receive, startLoco, .command 0x0242] ++ paramOffers params ++ [.arrive 0x07, .command 0x1200, .command 0x2100]

/-- No param, 15, 16 and 17. -/
theorem witness_TxFrame : State.reset.rx.Inv ∧ ∀ params ∈ ([[], fifteen, 0xFF :: fifteen, 0xFF :: 0xFE :: fifteen] : List (List Byte)),
    (∀ o ∈ frameOffers params, o.resets = false) ∧
    (frameOffers params).filter Offer.isEncoderCommand = startLoco :: paramOffers params ++ [.command 0x1200] := by decide

/-- The second clause of the same statement: a split of the offers at an encoder command. -/
theorem witness_TxFrame_split :
    ([Offer.command 0x1080, .command 0x1107, .command 0x1200] = [.command 0x1080] ++ .command 0x1107 :: [.command 0x1200]) ∧
    (Offer.command 0x1107).isEncoderCommand = true := by decide

/-- A frame already sent, another one built, and TX_SEND offered. -/
theorem witness_TransmitStream :
    let s := { building 0x2 [0x15] with sent := [0xFF, 0xFE, 0x00, 0x00], offers := [.command 0x1200] }
    s.tx.Inv ∧ WholeFrames s.sent ∧ gives (step s) (fun t => t.sent.length = 9) :=
  ⟨by decide, ⟨[(.interfaceStatus, [])], by decide, by decide⟩, by decide⟩

theorem witness_OnlyTxSendEmits : gives (step { building 0x2 [0x15] with offers := [.command 0x1200] }) fun t => t.sent ≠ [] := by
  decide

/-- A header of 0x00, and the longest frame; each with the check byte of each direction. -/
theorem witness_Loopback :
    (pendingOnly []).rx.state = .pre0 ∧ fifteen.length ≤ 15 ∧
    (pendingOnly (outboundBytes 0x0 [] ++ [0xFF#8])).pending = outboundBytes CodeFamily.interfaceStatus.nibble [] ++ [0xFF#8] ∧
    (pendingOnly (outboundBytes 0xE fifteen)).pending = outboundBytes CodeFamily.loco.nibble fifteen ++ [] ∧
    (pendingOnly [0xFF, 0xFE, 0xE1, 0x05, 0xE4]).pending =
      (outboundBytes CodeFamily.loco.nibble [0x05]).dropLast ++ [xorSum (headerByte CodeFamily.loco.nibble [0x05] :: [0x05])] ++
        [] := by decide

/-- PRE0; PRE1 with each marker, and with a byte that is neither. -/
theorem witness_ReceivingThePreamble :
    (pendingOnly [0xFF, 0xFE]).pending = 0xFF :: [0xFE] ∧ (pendingOnly [0xFF, 0xFE]).rx.state = .pre0 ∧
    ({ DecoderRegs.reset with state := .pre1, pre := 0xFF00 } : DecoderRegs).pre.extractLsb' 8 8 ++ 0xFE#8 = 0xFFFE#16 ∧
    ({ DecoderRegs.reset with state := .pre1, pre := 0xFF00 } : DecoderRegs).pre.extractLsb' 8 8 ++ 0xFD#8 = 0xFFFD#16 ∧
    ({ DecoderRegs.reset with state := .pre1, pre := 0xFF00 } : DecoderRegs).pre.extractLsb' 8 8 ++ 0xFC#8 ≠ 0xFFFE#16 ∧
    ({ DecoderRegs.reset with state := .pre1, pre := 0xFF00 } : DecoderRegs).pre.extractLsb' 8 8 ++ 0xFC#8 ≠ 0xFFFD#16 := by
  decide

theorem witness_ReceivingTheHeaderAndTheCheckByte :
    (decoding .hdr 0x00 0 0x00 [0x60]).pending = 0x60 :: [] ∧ (decoding .hdr 0x00 0 0x00 [0x60]).rx.state = .hdr ∧
    (decoding .chk 0x63 3 0xBE [0xBE]).pending = 0xBE :: [] ∧ (decoding .chk 0x63 3 0xBE [0xBE]).rx.state = .chk := by decide

/-- The first and the last payload byte. -/
theorem witness_ReceivingAPayloadByte : ∀ idx ∈ [0#4, 14#4],
    (decoding .pay 0x6F idx 0x00 [0x05]).pending = 0x05 :: [] ∧ (decoding .pay 0x6F idx 0x00 [0x05]).rx.state = .pay ∧
    (decoding .pay 0x6F idx 0x00 [0x05]).rx.idx.toNat < (decoding .pay 0x6F idx 0x00 [0x05]).rx.hdr.toNat % 16 := by decide

theorem witness_BytesAreTaken :
    (decoding .pay 0x6F 14 0x00 [0x05]).pending = 0x05 :: [] ∧
    (decoding .pay 0x6F 14 0x00 [0x05]).rx.state ∈ [RxState.pre0, .pre1, .hdr, .pay, .chk] ∧
    (decoding .pay 0x6F 14 0x00 [0x05]).rx.idx ≠ 15 ∧
    (decoding .desync 0x00 0 0x00 [0x05]).rx.state ∈ [RxState.ready, .ckerr, .desync] := by decide

theorem witness_RxRelease :
    (holding .direct 0x61 [0x01]).rx.state ∈ [RxState.ready, .ckerr] ∧
    (decoding .desync 0x00 0 0x00 []).rx.state ∉ [RxState.ready, .ckerr] := by decide

/-- A direct frame of 15 bytes, a broadcast of none, and neither preamble. -/
theorem witness_ReceiveStepsDecodeAFrame :
    State.reset.rx.state = .pre0 ∧
    fifteen.length = (0x6F : Byte).toNat % 16 ∧ ([] : List Byte).length = (0x60 : Byte).toNat % 16 ∧
    (pendingOnly ([0xFF, 0xFE, 0x6F] ++ fifteen ++ [0x6F] ++ [0xFF])).pending = [0xFF, 0xFE, 0x6F] ++ fifteen ++ [0x6F] ++ [0xFF] ∧
    0xFF#8 ++ 0xFE#8 = 0xFFFE#16 ∧ 0xFF#8 ++ 0xFD#8 = 0xFFFD#16 ∧
    0xFE#8 ++ 0xFF#8 ≠ 0xFFFE#16 ∧ 0xFE#8 ++ 0xFF#8 ≠ 0xFFFD#16 := by decide

theorem witness_FrameIn : ∀ payload ∈ [[], fifteen],
    payload.length ≤ 15 ∧ (pendingOnly []).rx.state = .pre0 ∧
    (pendingOnly (inboundBytes .broadcast (headerByte 0x3 payload) payload ++ [0x00])).pending =
      inboundBytes .broadcast (headerByte 0x3 payload) payload ++ [0x00] := by decide

/-- P4's two frames. -/
theorem witness_ReleaseResynchronizes :
    State.reset.rx.state = .pre0 ∧ [0x10#8, 0x05, 0xC8].length = headerLength 0x63 ∧ [0x01#8].length = headerLength 0x61 ∧
    0xBF ≠ xorSum (0x63 :: [0x10, 0x05, 0xC8]) ∧
    (pendingOnly [0xFF, 0xFE, 0x63, 0x10, 0x05, 0xC8, 0xBF, 0xFF, 0xFD, 0x61, 0x01, 0x60]).pending =
      [hiByte FrameKind.direct.preamble, loByte FrameKind.direct.preamble, 0x63] ++ [0x10, 0x05, 0xC8] ++ [0xBF] ++
        inboundBytes .broadcast 0x61 [0x01] ++ [] := by decide

theorem witness_Desync :
    let s := { decoding .desync 0x00 0 0x00 [0x63] with offers := [.receive] }
    s.rx.state = .desync ∧ gives (step s) (fun _ => true) ∧ s.offers.head?.all (fun o => !o.resets) = true := by decide

theorem witness_HeldFrameStays :
    let s := { holding .direct 0x61 [0x01] with pending := [0xFF], offers := [.receive] }
    (s.rx.state = .ready ∨ s.rx.state = .ckerr) ∧ gives (step s) (fun _ => true) ∧
    s.offers.head?.all (fun o => !o.resets && o != .command 0x2000) = true := by decide

theorem witness_SplitDeliveries :
    State.reset.rx.Inv ∧ State.reset.offers = [] ∧
    ∀ o ∈ [Offer.arrive 0xFF, .receive, .receive, .arrive 0xFE], o = .receive ∨ ∃ b, o = .arrive b :=
  ⟨by decide, rfl, by simp⟩

theorem witness_PendingBytes : gives (step { pendingOnly [0xFF, 0xFE] with offers := [.receive] }) fun t => t.pending = [0xFE] := by
  decide

theorem witness_UnpackChecks :
    (decoding .ckerr 0x63 3 0xBE []).rx.state = .ckerr ∧ State.reset.rx.state ≠ .ckerr ∧ State.reset.rx.state ≠ .ready := by
  decide

/-- A held frame for each disjunct: U33, U24, U16, U8, U13, U31, U20. -/
theorem witness_UnknownMessage :
    (holding .direct 0x22 [0x15, 0x01]).rx.state = .ready ∧
    hiNibble 0x22 ∉ [0x0#4, 0x4, 0x6, 0xF] ∧
    (hiNibble 0x02 = 0x0 ∧ headerLength 0x02 ≠ 1) ∧
    (hiNibble 0x62 = 0x6 ∧ headerLength 0x62 ≠ 3 ∧ headerLength 0x62 ≠ 1) ∧
    (holding .direct 0x63 [0x11, 0x01, 0x02]).rx.buf[0] ∉ [0x10#8, 0x14, 0x15, 0x16, 0x17] ∧
    (holding .broadcast 0x61 [0x03]).rx.buf[0] ∉ [State.reset.cfg.trackStateOff, 0x01#8, State.reset.cfg.trackStateProg] ∧
    (hiNibble 0xF0 = 0xF ∧ headerLength 0xF0 = 0) ∧ (hiNibble 0x41 = 0x4 ∧ headerLength 0x41 ≠ 2) := by decide

theorem witness_UnpackRunsTheHeldShape :
    let s := holding .broadcast 0x61 [0x01]
    s.rx.state = .ready ∧ decodeHeld false s.rx.kind s.rx.hdr s.rx.payload = .ok (.trackStatus 0x01) ∧
    0x01 ∈ [s.cfg.trackStateOff, 0x01#8, s.cfg.trackStateProg] := by decide

/-- The longest payload, and each clause on a header with code 0x0. -/
theorem witness_InterfaceStatus :
    (holding .direct 0x0F fifteen).rx.state = .ready ∧ fifteen.length ≤ 15 ∧
    hiNibble (holding .direct 0x0F fifteen).rx.hdr = 0x0 ∧ headerLength (holding .direct 0x0F fifteen).rx.hdr ≠ 1 ∧
    hiNibble (holding .direct 0x01 [0x04]).rx.hdr = 0x0 ∧ headerLength (holding .direct 0x01 [0x04]).rx.hdr = 1 := by decide

theorem witness_CvNumberAssembly : (0x11 : Byte) ∉ [0x10#8, 0x14, 0x15, 0x16, 0x17] ∧ (0x00 : Byte).toNat = 0 := by decide

theorem witness_ProgrammingResult :
    (holding .direct 0x63 [0x14, 0x00, 0x4D]).rx.state = .ready ∧ (holding .direct 0x63 [0x14, 0x00, 0x4D]).rx.kind = .direct ∧
    (holding .broadcast 0x63 [0x14, 0x00, 0x4D]).rx.state = .ready ∧
    (holding .broadcast 0x63 [0x14, 0x00, 0x4D]).rx.kind = .broadcast := by decide

/-- A parameter set of R7's kind, each state byte of it, and a byte that names no state. -/
theorem witness_TrackStatus :
    let s := { holding .broadcast 0x61 [0x80] with cfg := { trackStateOff := 0x80, trackStateProg := 0xFF, accUndetBit := 7 } }
    s.rx.state = .ready ∧ s.cfg.Valid ∧ s.rx.kind = .broadcast ∧ (holding .direct 0x61 [0x80]).rx.kind = .direct ∧
    0x02 ∉ [s.cfg.trackStateOff, 0x01#8, s.cfg.trackStateProg] := by decide

theorem witness_InterfaceReply :
    (holding .direct 0xFF fifteen).rx.state = .ready ∧ (fifteen.drop 1).length ≤ 14 ∧
    hiNibble (holding .direct 0xFF fifteen).rx.hdr = 0xF ∧
    (holding .direct 0xFF fifteen).rx.payload = 0x01 :: fifteen.drop 1 ∧
    (holding .direct 0xF1 [0x02]).rx.payload = 0x02 :: [] ∧ (holding .direct 0xF1 [0x03]).rx.payload = 0x03 :: [] ∧
    headerLength 0xF0 = 0 ∧ (holding .direct 0xF1 [0x04]).rx.buf[0] ∉ [0x01#8, 0x02, 0x03] := by decide

theorem witness_AccessoryReport :
    (holding .broadcast 0x42 [0x7F, 0x60]).rx.state = .ready ∧ hiNibble (holding .broadcast 0x42 [0x7F, 0x60]).rx.hdr = 0x4 ∧
    (holding .broadcast 0x42 [0x7F, 0x60]).rx.payload = [0x7F, 0x60] ∧ headerLength 0x43 ≠ 2 ∧ hiNibble 0x43 = 0x4 := by decide

/-- The state a reset leaves from a frame under construction. -/
theorem witness_RegistersAfterReset :
    perform .resetInput (building 0x6 [0x01]) = .next State.reset ∧ exec .rst (building 0x6 [0x01]) = .next State.reset :=
  ⟨rfl, rfl⟩

theorem witness_IllegalWord :
    ({ State.reset with offers := [.command 0xFFFF] } : State).offers = .command 0xFFFF :: [] ∧
    ∀ i, decodeCommand 0xFFFF ≠ .ok i :=
  ⟨rfl, fun i h => by
    have : decodeCommand 0xFFFF = .error .unlistedOpcode := by decide
    rw [this] at h; cases h⟩

/-- The ends of the unmapped ranges. -/
theorem witness_ReadMap : ∀ a ∈ [0x0E#8, 0x0F, 0x1A, 0x1F, 0x2F, 0x3F, 0x4F, 0xFF],
    a.toNat = 0x0E ∨ a.toNat = 0x0F ∨ (0x1A ≤ a.toNat ∧ a.toNat ≤ 0x1F) ∨ a.toNat = 0x2F ∨ a.toNat = 0x3F ∨ 0x4F ≤ a.toNat := by
  decide

/-- Two different states that read alike. -/
theorem witness_EveryRegisterIsReadable :
    pendingOnly [0xFF] ≠ State.reset ∧ ∀ a : Byte, regRead (pendingOnly [0xFF]) a = regRead State.reset a :=
  ⟨by decide, fun _ => rfl⟩

theorem witness_ChecksumAndBcdFrame : (0x0E : Byte) ∉ [0x01#8, 0x0C, 0x0D] ∧ (0x0B : Byte) ∉ [0x00#8, 0x01] := by decide

/-- The addresses beside the encoder's, and TX_PARAM's entry beside the one it writes. -/
theorem witness_EncoderFrame : (∀ a ∈ [0x07#8, 0x0B, 0x2F, 0x3F],
    a ∉ [0x00#8, 0x01, 0x08, 0x09, 0x0A] ∧ ¬ (0x30 ≤ a.toNat ∧ a.toNat ≤ 0x3E)) ∧
    (1 : Fin 15).val ≠ (building 0x2 []).tx.cnt.toNat ∧ (1 : Fin 15).val ≠ (building 0x2 [0x15, 0x01]).tx.cnt.toNat := by decide

theorem witness_DecoderFrame :
    gives (exec (.rxByte 0xBE) (decoding .chk 0x63 3 0xBE [0xBE])) (fun t => t.rx.state = .ready) ∧
    gives (exec (.frameIn .direct 0x0 []) (pendingOnly [0xFF, 0xFE, 0x00, 0x00])) (fun t => t.rx.state = .ready) ∧
    ∀ a ∈ [0x01#8, 0x08, 0x1F, 0x2F],
      a ∉ [0x00#8, 0x02, 0x03, 0x04, 0x05, 0x06, 0x07] ∧ ¬ (0x20 ≤ a.toNat ∧ a.toNat ≤ 0x2E) := by decide

theorem witness_UnpackerFrame : ∀ a ∈ [0x00#8, 0x0F, 0x1A, 0x3F, 0x4F],
    a ≠ 0x01 ∧ ¬ (0x10 ≤ a.toNat ∧ a.toNat ≤ 0x19) ∧ ¬ (0x40 ≤ a.toNat ∧ a.toNat ≤ 0x4E) := by decide

/-- A state for each clause. -/
theorem witness_StepRuns :
    ({ State.reset with offers := [.command 0x1200] } : State).offers = .command 0x1200 :: [] ∧
    decodeCommand 0x1200 = .ok .txSend ∧
    ({ pendingOnly [0xFF] with offers := [.receive] } : State).pending = 0xFF :: [] ∧
    ({ State.reset with offers := [.receive] } : State).pending = [] ∧
    ({ State.reset with offers := [.read 0x00] } : State).offers = .read 0x00 :: [] := by decide

theorem witness_OnlyCommandsWriteOpst :
    let s := { pendingOnly [0xFF] with opst := .noFrame, offers := [.receive, .command 0xF000] }
    gives (step s) (fun t => t.opst = .noFrame) ∧ s.offers.head?.all (fun o => !o.isCommand && !o.resets) = true := by decide

/-- A receive step that takes a byte, beside a command. -/
theorem witness_ReceiveStepsCommute :
    gives (andThen (exec (.txParam 0x15) { building 0x2 [] with pending := [0xFF] }) (exec (.rxByte 0xFF)))
      (fun t => t.tx.cnt = 1 ∧ t.rx.state = .pre1) := by decide

theorem witness_ShareNoState :
    let s := { building 0x2 [0x15] with pending := [0xFF] }
    let t := { pendingOnly [0xFF] with opst := .noFrame }
    s.rx = t.rx ∧ s.pending = t.pending ∧ s.tx ≠ t.tx ∧
    gives (exec (.rxByte 0xFF) s) (fun u => u.rx.state = .pre1) ∧ gives (exec (.rxByte 0xFF) t) (fun u => u.rx.state = .pre1) := by
  decide

/-- A step for each clause that does change the unit. -/
theorem witness_EachUnit :
    gives (step { pendingOnly [0xFF] with offers := [.receive] }) (fun t => t.rx ≠ State.reset.rx) ∧
    gives (step { State.reset with offers := [.command 0x1020] }) (fun t => t.tx ≠ State.reset.tx) ∧
    gives (step { State.reset with offers := [.command 0x0242] }) (fun t => t.cks ≠ State.reset.cks) ∧
    gives (step { State.reset with offers := [.command 0x3036] }) (fun t => t.bcd ≠ State.reset.bcd) ∧
    gives (step { holding .direct 0x01 [0x04] with offers := [.command 0x2100] }) (fun t => t.res ≠ State.reset.res) ∧
    ∀ o ∈ [Offer.receive, .command 0x1020, .command 0x0242, .command 0x3036, .command 0x2100], o.resets = false := by decide

/-- A held frame and a built one, and the step that unpacks. -/
theorem witness_EveryStepKeepsTheInvariant :
    let s := { building 0x2 [0x15] with rx := readyFrame .direct 0x63 [0x14, 0x00, 0x4D] .reset, offers := [.command 0x2100] }
    s.Inv ∧ gives (step s) (fun t => t.res.cv = 1024) :=
  ⟨⟨by decide, by decide, by decide⟩, by decide⟩

/-- In PAY, about to take the 15th byte: the state nearest to the stop. -/
theorem witness_NoStepStops :
    ({ decoding .pay 0x6F 14 0x6F [0x01] with offers := [.receive] } : State).Inv ∧
    gives (step { decoding .pay 0x6F 14 0x6F [0x01] with offers := [.receive] }) (fun t => t.rx.idx = 15) :=
  ⟨⟨by decide, by decide, by decide⟩, by decide⟩

end Sys2Proof.Tests
end

/-! ## The statements of 00_scope.md: the parameters of R7, and who writes OPST -/

namespace Sys2Proof.Machine

/-! ### Track status (R175, R178) -/

theorem exec_trackStatus (state : Byte) (s : State) :
    exec (.trackStatus state) s = .next (unpackHeld (withPreamble .broadcast (trackStatusCase s.cfg state) s) s) := rfl

theorem trackStatusCase_off (cfg : Config) : trackStatusCase cfg cfg.trackStateOff = some (.trackStatus .off) :=
  if_pos rfl

theorem trackStatusCase_on {cfg : Config} (h : cfg.Valid) :
    trackStatusCase cfg 0x01#8 = some (.trackStatus .on) := by
  obtain ⟨hoff, -, -⟩ := h
  simp [trackStatusCase, trackStateOn, hoff.symm]

theorem trackStatusCase_prog {cfg : Config} (h : cfg.Valid) :
    trackStatusCase cfg cfg.trackStateProg = some (.trackStatus .programming) := by
  obtain ⟨-, hprog, hne⟩ := h
  simp [trackStatusCase, trackStateOn, hne.symm, hprog]

theorem trackStatusCase_unknown {cfg : Config} {state : Byte}
    (h : state ∉ [cfg.trackStateOff, 0x01#8, cfg.trackStateProg]) : trackStatusCase cfg state = none := by
  simp only [List.mem_cons, List.not_mem_nil, or_false, not_or] at h
  obtain ⟨hoff, hon, hprog⟩ := h
  simp [trackStatusCase, trackStateOn, hoff, hon, hprog]

/-- A track state that a broadcast frame names is written over a cleared result. -/
theorem exec_trackStatus_known {s : State} {state : Byte} {track : TrackState} (hready : s.rx.state = .ready)
    (hkind : s.rx.kind = .broadcast) (h : trackStatusCase s.cfg state = some (.trackStatus track)) :
    exec (.trackStatus state) s =
      .next { s with
        opst := .ok
        res := { ResultRegs.reset with
          kind := .trackStatus, code := s.rx.hdr &&& 0xF0#8, bcst := true, track := track } } := by
  rw [exec_trackStatus, withPreamble, if_pos hkind, h, unpackHeld_message _ hready, hkind]
  rfl

/-- Settles O36: R7's constraints make the three comparisons exclusive, so each byte gives its own state. -/
theorem trackStatusGivesTheState : Obligations.TrackStatusGivesTheState := by
  intro s state hready hvalid
  constructor
  · intro hkind p hp hstate
    subst hstate
    apply exec_trackStatus_known hready hkind
    simp only [List.mem_cons, List.not_mem_nil, or_false] at hp
    obtain rfl | rfl | rfl := hp
    · exact trackStatusCase_off s.cfg
    · exact trackStatusCase_on hvalid
    · exact trackStatusCase_prog hvalid
  · intro h
    have hunknown : withPreamble .broadcast (trackStatusCase s.cfg state) s = none := by
      obtain hdirect | hstate := h
      · simp [withPreamble, hdirect]
      · simp [withPreamble, trackStatusCase_unknown hstate]
    rw [exec_trackStatus, hunknown, unpackHeld_unknown hready]

/-! ### Accessory report (R77, R180) -/

theorem payload_length (r : DecoderRegs) : r.payload.length = headerLength r.hdr := by
  have := headerLength_le r.hdr
  simp only [DecoderRegs.payload, List.length_take, Vector.length_toList]
  omega

theorem accReportCase_of_length_ne_two (cfg : Config) {payload : List Byte} (h : payload.length ≠ 2) :
    accReportCase cfg payload = none := by
  match payload with
  | [] | [_] | _ :: _ :: _ :: _ => rfl
  | [_, _] => exact absurd rfl h

theorem dispatch_accessoryReport (cfg : Config) (payload : List Byte) (kind : FrameKind) (ctx : Bool) :
    dispatch cfg 0x4 payload kind ctx = accReportCase cfg payload := rfl

theorem AccKind.bits_ofBits (b : BitVec 2) : (AccKind.ofBits b).bits = b := by
  revert b; decide

theorem rxKindFlag_eq_true {k : FrameKind} : rxKindFlag k = true ↔ k = .broadcast := by
  cases k <;> decide

/-- The registers an accessory report writes. -/
def accReportResult (s : State) (address f : Byte) : ResultRegs :=
  { ResultRegs.reset with
    kind := .accState, code := s.rx.hdr &&& 0xF0, bcst := rxKindFlag s.rx.kind, addr := address
    undet := f.getLsbD s.cfg.accUndetBit.val, akind := AccKind.ofBits (f.extractLsb' 5 2), nib := f.getLsbD 4
    statev := loNibble f }

theorem exec_accReport {s : State} (address f : Byte) (hready : s.rx.state = .ready) :
    exec (.accReport address f) s = .next { s with res := accReportResult s address f, opst := .ok } :=
  congrArg _ (unpackHeld_message _ hready)

/-- With code nibble 0x4 UNPACK reads the held payload as an accessory report, in either context. -/
theorem exec_unpack_accessoryReport (ctx : Bool) {s : State} (hcode : hiNibble s.rx.hdr = 0x4) :
    exec (.unpack ctx) s = .next (unpackHeld (accReportCase s.cfg s.rx.payload) s) := by
  show Host.Outcome.next (unpackHeld (dispatch _ _ _ _ _) s) = _
  rw [hcode, dispatch_accessoryReport]

/-- Settles O38: field by field for two bytes; of any other length the case rule has no row. -/
theorem accessoryReportGivesTheFields : Obligations.AccessoryReportGivesTheFields := by
  intro s address f hready
  constructor
  · have hakind : (AccKind.ofBits (f.extractLsb' 5 2)).bits.toNat = f.toNat / 32 % 4 := by
      rw [AccKind.bits_ofBits, BitVec.extractLsb'_toNat, Nat.shiftRight_eq_div_pow]
    exact ⟨_, exec_accReport address f hready, rfl, rfl, rfl, rfl, hakind, rfl, loNibble_toNat f, rfl,
      rxKindFlag_eq_true, rfl⟩
  · intro ctx hcode
    rw [exec_unpack_accessoryReport ctx hcode]
    constructor
    · intro hpayload
      rw [hpayload]
      rfl
    · intro hlength
      rw [accReportCase_of_length_ne_two _ (by rwa [payload_length]), unpackHeld_unknown hready]

/-! ### What writes OPST and the parameters (R7, R238) -/

@[simp] theorem State.withOffers_opst (os : List Offer) (s : State) : (s.withOffers os).opst = s.opst := rfl
@[simp] theorem State.withOffers_cfg (os : List Offer) (s : State) : (s.withOffers os).cfg = s.cfg := rfl

@[simp] theorem sendFrame_cfg (bytes : List Byte) (s : State) : (sendFrame bytes s).cfg = s.cfg := by
  obtain ⟨-, e⟩ | ⟨-, e⟩ := sendFrame_cases bytes s <;> rw [e]

/-- No instruction writes the parameters (R7). -/
theorem exec_cfg {i : Instr} {s t : State} (h : exec i s = .next t) : t.cfg = s.cfg := by
  cases i with
  | txParam b =>
    obtain ⟨-, e⟩ | ⟨-, -, e⟩ | ⟨-, -, e⟩ := execTxParam_cases b s <;> cases e.symm.trans h <;> rfl
  | txSend | frameOut => cases h; exact sendFrame_cfg _ s
  | rxRelease =>
    simp only [exec, execRxRelease] at h
    split at h <;> cases h <;> rfl
  | rxByte b => rw [execRxByte_frame h]
  | frameIn kind code payload => rw [receiveAll_frame h]
  | unpack | ifstatusReply | ifstatusStatus | progResult10 | progResult14 | progResult15 | progResult16 | progResult17
    | trackStatus | ifaceReply01 | ifaceReply02 | ifaceReply03 | accReport => cases h; exact unpackHeld_cfg _ s
  | cksClr | cksAdd | cksVerify | txStart | bcd | rst | regRead => cases h; rfl

theorem perform_cfg {o : Offer} {s t : State} (h : perform o s = .next t) : t.cfg = s.cfg := by
  cases o with
  | command w =>
    simp only [perform] at h
    split at h
    · exact exec_cfg h
    · cases h; rfl
  | receive =>
    simp only [perform] at h
    split at h
    · cases h; rfl
    · exact exec_cfg h
  | read a => exact exec_cfg (i := .regRead a) h
  | arrive b | resetInput => cases h; rfl

/-- Only a command and the reset input write OPST (R238). -/
theorem perform_opst {o : Offer} {s t : State} (h : perform o s = .next t) (hcommand : o.isCommand = false)
    (hresets : o.resets = false) : t.opst = s.opst := by
  cases o with
  | command w => cases hcommand
  | receive =>
    simp only [perform] at h
    split at h
    · cases h; rfl
    · rw [execRxByte_frame h]
  | read a | arrive b => cases h; rfl
  | resetInput => cases hresets

/-- Settles O53: a step is what its offer does, and each offer keeps the parameters and, unless it is a command or a reset,
OPST. -/
theorem onlyCommandsWriteOpstAndNothingTheParameters :
    Obligations.OnlyCommandsWriteOpstAndNothingTheParameters := by
  intro s t hstep
  obtain ⟨-, rfl⟩ | ⟨o, later, u, hoffers, hperform, rfl⟩ := step_eq_next hstep
  · exact ⟨fun _ => rfl, rfl⟩
  · rw [State.withOffers_opst, State.withOffers_cfg]
    refine ⟨fun h => ?_, perform_cfg hperform⟩
    obtain ⟨hcommand, hresets⟩ : o.isCommand = false ∧ o.resets = false := by simpa [hoffers] using h
    exact perform_opst hperform hcommand hresets

end Sys2Proof.Machine

/-! ## The statements of 10_state.md: the read map shows every register, and what every step keeps -/

namespace Sys2Proof.Machine

/-! ### Codes and bit fields that determine what they encode -/

theorem append_inj {m n : Nat} {a a' : BitVec m} {b b' : BitVec n} : a ++ b = a' ++ b' ↔ a = a' ∧ b = b' := by
  refine ⟨fun h => ⟨?_, ?_⟩, by rintro ⟨rfl, rfl⟩; rfl⟩
  · rw [← BitVec.extractLsb'_append_eq_left (a := a) (b := b), h, BitVec.extractLsb'_append_eq_left]
  · rw [← BitVec.extractLsb'_append_eq_right (a := a) (b := b), h, BitVec.extractLsb'_append_eq_right]

theorem setWidth_injective {m n : Nat} (h : m ≤ n) : Function.Injective (BitVec.setWidth n : BitVec m → BitVec n) := by
  intro x y hxy
  simpa [BitVec.setWidth_setWidth_of_le _ h] using congrArg (BitVec.setWidth m) hxy

theorem RxState.bits_injective : Function.Injective RxState.bits := by
  intro a b; cases a <;> cases b <;> decide

theorem rxKindFlag_injective : Function.Injective rxKindFlag := by
  intro a b; cases a <;> cases b <;> decide

theorem TxState.flag_injective : Function.Injective TxState.flag := by
  intro a b; cases a <;> cases b <;> decide

theorem OpStatus.code_injective : Function.Injective OpStatus.code := by
  intro a b; cases a <;> cases b <;> decide

theorem ResKind.bits_injective : Function.Injective ResKind.bits := by
  intro a b; cases a <;> cases b <;> decide

theorem AccKind.bits_injective : Function.Injective AccKind.bits := by
  intro a b; cases a <;> cases b <;> decide

theorem TrackState.bits_injective : Function.Injective TrackState.bits := by
  intro a b; cases a <;> cases b <;> decide

/-- R57: STATUS shows four registers. -/
theorem statusByte_inj {s t : State} : statusByte s = statusByte t ↔
    s.cks.eq = t.cks.eq ∧ s.tx.state = t.tx.state ∧ s.rx.kind = t.rx.kind ∧ s.rx.state = t.rx.state := by
  -- The width as the sum of the fields' widths, for `append_inj`.
  change @Eq (BitVec (2 + 1 + 1 + 1 + 3)) (statusByte s) (statusByte t) ↔ _
  simp only [statusByte, append_inj, BitVec.ofBool_eq_iff_eq, TxState.flag_injective.eq_iff,
    rxKindFlag_injective.eq_iff, RxState.bits_injective.eq_iff, true_and, and_assoc]

/-- R58: RES_FLAGS shows six. -/
theorem resFlags_inj {r q : ResultRegs} : resFlags r = resFlags q ↔
    r.track = q.track ∧ r.akind = q.akind ∧ r.nib = q.nib ∧ r.undet = q.undet ∧ r.bcst = q.bcst ∧
      r.stkind = q.stkind := by
  -- Likewise.
  change @Eq (BitVec (2 + 2 + 1 + 1 + 1 + 1)) (resFlags r) (resFlags q) ↔ _
  simp only [resFlags, append_inj, BitVec.ofBool_eq_iff_eq, TrackState.bits_injective.eq_iff,
    AccKind.bits_injective.eq_iff, and_assoc]

theorem eq_of_hiByte_of_loByte {v w : BitVec 16} (hhi : hiByte v = hiByte w) (hlo : loByte v = loByte w) : v = w := by
  rw [← joinBytes_hi_lo v, hhi, hlo, joinBytes_hi_lo]

/-- R56: RES_CV is shown in two bytes. -/
theorem cv_eq_of_parts {v w : BitVec 11} (hhi : v.extractLsb' 8 3 = w.extractLsb' 8 3)
    (hlo : v.extractLsb' 0 8 = w.extractLsb' 0 8) : v = w := by
  have hparts (u : BitVec 11) : u.extractLsb' 8 3 ++ u.extractLsb' 0 8 = u := BitVec.extractLsb'_append_extractLsb'
  rw [← hparts v, hhi, hlo, hparts]

/-! ### What the buffers' addresses show (R56) -/

/-- The address of entry `i` of the buffer at `base`. -/
def bufferAddress (base i : Nat) : Byte := BitVec.ofNat 8 (base + i)

theorem bufferAddress_toNat {base i : Nat} (h : base + i < 256) : (bufferAddress base i).toNat = base + i := by
  rw [bufferAddress, BitVec.toNat_ofNat, Nat.mod_eq_of_lt h]

theorem lookup_bufferRows_entry {base i : Nat} (hb : base ≤ 241) (hi : i < 15) (buf : Buffer) :
    (bufferRows base buf).lookup (bufferAddress base i) = some buf[i] := by
  have ha : (bufferAddress base i).toNat = base + i := bufferAddress_toNat (by omega)
  simp [lookup_bufferRows base hb, ha, hi]

theorem lookup_bufferRows_above {base : Nat} (hb : base ≤ 241) {a : Byte} (ha : base + 15 ≤ a.toNat) (buf : Buffer) :
    (bufferRows base buf).lookup a = none := by
  rw [lookup_bufferRows base hb, dif_neg (by omega)]

/-- From 0x20 on an address is in neither of the two first parts of the map. -/
theorem regRead_of_buffers {s : State} {a : Byte} (h : 0x20 ≤ a.toNat) :
    regRead s a =
      ((((bufferRows 0x20 s.rx.buf).lookup a).or ((bufferRows 0x30 s.tx.buf).lookup a)).or
        ((bufferRows 0x40 s.res.pay).lookup a)).getD 0x00 := by
  rw [regRead_eq, lookup_controlRows_none s (by omega), lookup_resultRows_none s.res (by omega), Option.none_or,
    Option.none_or]

theorem regRead_rxBuf (s : State) {i : Nat} (h : i < 15) : regRead s (bufferAddress 0x20 i) = s.rx.buf[i] := by
  have ha : (bufferAddress 0x20 i).toNat = 0x20 + i := bufferAddress_toNat (by omega)
  rw [regRead_of_buffers (by omega), lookup_bufferRows_entry (by decide) h]
  rfl

theorem regRead_txBuf (s : State) {i : Nat} (h : i < 15) : regRead s (bufferAddress 0x30 i) = s.tx.buf[i] := by
  have ha : (bufferAddress 0x30 i).toNat = 0x30 + i := bufferAddress_toNat (by omega)
  rw [regRead_of_buffers (by omega), lookup_bufferRows_above (by decide) (by omega),
    lookup_bufferRows_entry (by decide) h]
  rfl

theorem regRead_resPay (s : State) {i : Nat} (h : i < 15) : regRead s (bufferAddress 0x40 i) = s.res.pay[i] := by
  have ha : (bufferAddress 0x40 i).toNat = 0x40 + i := bufferAddress_toNat (by omega)
  rw [regRead_of_buffers (by omega), lookup_bufferRows_above (by decide) (by omega),
    lookup_bufferRows_above (by decide) (by omega), lookup_bufferRows_entry (by decide) h]
  rfl

/-! ### The registers of each unit, from what the read port shows -/

section

variable {s t : State} (h : ∀ a : Byte, regRead s a = regRead t a)
include h

theorem status_eq_of_reads :
    s.cks.eq = t.cks.eq ∧ s.tx.state = t.tx.state ∧ s.rx.kind = t.rx.kind ∧ s.rx.state = t.rx.state :=
  statusByte_inj.1 (h 0x00)

theorem decoder_eq_of_reads : s.rx = t.rx := by
  obtain ⟨-, -, hkind, hstate⟩ := status_eq_of_reads h
  have hpre : s.rx.pre = t.rx.pre := eq_of_hiByte_of_loByte (h 0x02) (h 0x03)
  have hidx : s.rx.idx = t.rx.idx := setWidth_injective (by decide) (h 0x05)
  have hbuf : s.rx.buf = t.rx.buf := Vector.ext fun i hi => by rw [← regRead_rxBuf s hi, h, regRead_rxBuf t hi]
  exact (DecoderRegs.mk.injEq ..).mpr ⟨hstate, hkind, hpre, h 0x04, hidx, hbuf, h 0x06, h 0x07⟩

theorem encoder_eq_of_reads : s.tx = t.tx := by
  obtain ⟨-, hstate, -, -⟩ := status_eq_of_reads h
  have hcode : s.tx.code = t.tx.code := (append_inj.1 (h 0x08)).1
  have hcnt : s.tx.cnt = t.tx.cnt := setWidth_injective (by decide) (h 0x09)
  have hbuf : s.tx.buf = t.tx.buf := Vector.ext fun i hi => by rw [← regRead_txBuf s hi, h, regRead_txBuf t hi]
  exact (EncoderRegs.mk.injEq ..).mpr ⟨hstate, hcode, hcnt, hbuf, h 0x0A⟩

theorem checksum_eq_of_reads : s.cks = t.cks := by
  obtain ⟨heq, -, -, -⟩ := status_eq_of_reads h
  exact (ChecksumRegs.mk.injEq ..).mpr ⟨h 0x0B, heq⟩

theorem bcd_eq_of_reads : s.bcd = t.bcd :=
  (BcdRegs.mk.injEq ..).mpr ⟨setWidth_injective (by decide) (h 0x0C), setWidth_injective (by decide) (h 0x0D)⟩

theorem result_eq_of_reads : s.res = t.res := by
  obtain ⟨htrack, hakind, hnib, hundet, hbcst, hstkind⟩ := resFlags_inj.1 (h 0x12)
  have hkind : s.res.kind = t.res.kind := ResKind.bits_injective (setWidth_injective (by decide) (h 0x10))
  have hcv : s.res.cv = t.res.cv := cv_eq_of_parts (setWidth_injective (by decide) (h 0x14)) (h 0x15)
  have hstatev : s.res.statev = t.res.statev := setWidth_injective (by decide) (h 0x18)
  have hplen : s.res.plen = t.res.plen := setWidth_injective (by decide) (h 0x19)
  have hpay : s.res.pay = t.res.pay := Vector.ext fun i hi => by rw [← regRead_resPay s hi, h, regRead_resPay t hi]
  exact (ResultRegs.mk.injEq ..).mpr
    ⟨hkind, h 0x11, hstkind, h 0x13, hbcst, hplen, hpay, hcv, h 0x16, h 0x17, hundet, hakind, hnib, hstatev, htrack⟩

end

/-- Settles O47: unit by unit, each register is a field of a byte that the read map shows, or two of them. -/
theorem everyRegisterIsReadable : Obligations.EveryRegisterIsReadable := fun _ _ h =>
  ⟨decoder_eq_of_reads h, encoder_eq_of_reads h, checksum_eq_of_reads h, bcd_eq_of_reads h,
    OpStatus.code_injective (h 0x01), result_eq_of_reads h⟩

/-! ### What an offer does to each unit -/

/-- The instructions that are command words (R79). -/
inductive IsCommand : Instr → Prop
  | cksClr : IsCommand .cksClr
  | cksAdd (b : Byte) : IsCommand (.cksAdd b)
  | cksVerify (e : Byte) : IsCommand (.cksVerify e)
  | txStart (c : CodeFamily) : IsCommand (.txStart c)
  | txParam (b : Byte) : IsCommand (.txParam b)
  | txSend : IsCommand .txSend
  | rxRelease : IsCommand .rxRelease
  | unpack (ctx : Bool) : IsCommand (.unpack ctx)
  | bcd (b : Byte) : IsCommand (.bcd b)
  | rst : IsCommand .rst

theorem isCommand_of_decodeCommand {w : CommandWord} {i : Instr} (h : decodeCommand w = .ok i) : IsCommand i := by
  obtain ⟨rfl, -⟩ | ⟨b, rfl, -⟩ | ⟨e, rfl, -⟩ | ⟨c, rfl, -⟩ | ⟨b, rfl, -⟩ | ⟨rfl, -⟩ | ⟨rfl, -⟩ | ⟨ctx, rfl, -⟩ |
    ⟨b, rfl, -⟩ | ⟨rfl, -⟩ := decodeCommand_cases h <;> constructor

/-- An offer is a legal command, a receive step, a reset, or leaves the decoder, the encoder, the results and the
transmit stream alone. -/
theorem perform_cases {o : Offer} {s t : State} (h : perform o s = .next t) :
    (∃ w i, o = .command w ∧ decodeCommand w = .ok i ∧ exec i s = .next t) ∨
    (∃ b, o = .receive ∧ execRxByte b s = .next t) ∨
    (o = .resetInput ∧ t = resetBlock s) ∨
    (t.rx = s.rx ∧ t.tx = s.tx ∧ t.res = s.res ∧ t.sent = s.sent) := by
  cases o with
  | command w =>
    cases hw : decodeCommand w with
    | ok i => simp only [perform, hw] at h; exact .inl ⟨w, i, rfl, hw, h⟩
    | error e => simp only [perform, hw] at h; cases h; exact .inr (.inr (.inr ⟨rfl, rfl, rfl, rfl⟩))
  | receive =>
    cases hp : s.pending with
    | nil => simp only [perform, hp] at h; cases h; exact .inr (.inr (.inr ⟨rfl, rfl, rfl, rfl⟩))
    | cons b more => exact .inr (.inl ⟨b, rfl, by rwa [perform_receive hp] at h⟩)
  | read a | arrive b => cases h; exact .inr (.inr (.inr ⟨rfl, rfl, rfl, rfl⟩))
  | resetInput => cases h; exact .inr (.inr (.inl ⟨rfl, rfl⟩))

/-- A predicate that every offer keeps, and that says nothing of the offers to come, is kept by every step. -/
theorem step_keeps {p : State → Prop} (hoffers : ∀ os s, p s → p (s.withOffers os))
    (hperform : ∀ o s t, perform o s = .next t → p s → p t) {s t : State} (hstep : step s = .next t) (hs : p s) :
    p t := by
  obtain ⟨-, rfl⟩ | ⟨o, later, u, -, hu, rfl⟩ := step_eq_next hstep
  · exact hs
  · exact hoffers later u (hperform o s u hu hs)

theorem execTxParam_frame {b : Byte} {s t : State} (h : execTxParam b s = .next t) :
    t = { s with tx := t.tx, opst := t.opst } := by
  obtain ⟨-, e⟩ | ⟨-, -, e⟩ | ⟨-, -, e⟩ := execTxParam_cases b s <;> cases e.symm.trans h <;> rfl

theorem sendFrame_frame (bytes : List Byte) (s : State) :
    sendFrame bytes s =
      { s with tx := (sendFrame bytes s).tx, opst := (sendFrame bytes s).opst, sent := (sendFrame bytes s).sent } := by
  obtain ⟨-, e⟩ | ⟨-, e⟩ := sendFrame_cases bytes s <;> rw [e]

@[simp] theorem sendFrame_rx (bytes : List Byte) (s : State) : (sendFrame bytes s).rx = s.rx := by rw [sendFrame_frame]
@[simp] theorem sendFrame_res (bytes : List Byte) (s : State) : (sendFrame bytes s).res = s.res := by rw [sendFrame_frame]

/-- The two things RX_RELEASE can do (R147). -/
theorem execRxRelease_cases (s : State) :
    execRxRelease s = .next { s with rx := { s.rx with state := .pre0 }, opst := .ok } ∨
    execRxRelease s = .next { s with opst := .noFrame } := by
  unfold execRxRelease
  split
  · exact .inl rfl
  · exact .inr rfl

/-! ### The encoder and the transmit stream -/

/-- What one offer can make of the encoder's registers, and the bytes it emits (R121 to R123, R260). -/
inductive EncoderStep (r : EncoderRegs) : EncoderRegs → List Byte → Prop
  | keep : EncoderStep r r []
  | reset : EncoderStep r .reset []
  | start (c : CodeFamily) : EncoderStep r { r with state := .build, code := c.nibble, cnt := 0, xor := 0x00 } []
  | append (b : Byte) (hcnt : r.cnt.toNat < 15) :
    EncoderStep r { r with buf := r.buf.setIfInBounds r.cnt.toNat b, xor := r.xor ^^^ b, cnt := r.cnt + 1 } []
  | drop : EncoderStep r { r with state := .idle } []
  | send (hbuild : r.state = .build) :
    EncoderStep r { r with state := .idle } ([0xFF, 0xFE, joinNibbles r.code r.cnt] ++ r.params ++ [r.xor])

/-- The step from `s` to `t` is an `EncoderStep`, whose bytes are appended to the transmit stream. -/
def EncoderSteps (s t : State) : Prop := ∃ bytes, EncoderStep s.tx t.tx bytes ∧ t.sent = s.sent ++ bytes

theorem EncoderSteps.silent {s t : State} (h : EncoderStep s.tx t.tx []) (hsent : t.sent = s.sent) : EncoderSteps s t :=
  ⟨[], h, by rw [hsent, List.append_nil]⟩

theorem EncoderSteps.of_eq {s t : State} (htx : t.tx = s.tx) (hsent : t.sent = s.sent) : EncoderSteps s t :=
  .silent (htx ▸ .keep) hsent

theorem exec_command_encoder {i : Instr} {s t : State} (hi : IsCommand i) (h : exec i s = .next t) :
    EncoderSteps s t := by
  cases hi with
  | cksClr | cksAdd | cksVerify | bcd => cases h; exact .of_eq rfl rfl
  | txStart c => cases h; exact .silent (.start c) rfl
  | txParam b =>
    obtain ⟨-, e⟩ | ⟨-, -, e⟩ | ⟨-, hcnt, e⟩ := execTxParam_cases b s <;> cases e.symm.trans h
    · exact .of_eq rfl rfl
    · exact .silent .drop rfl
    · exact .silent (.append b hcnt) rfl
  | txSend =>
    cases h
    obtain ⟨-, e⟩ | ⟨hbuild, e⟩ :=
      sendFrame_cases ([0xFF, 0xFE, joinNibbles s.tx.code s.tx.cnt] ++ s.tx.params ++ [s.tx.xor]) s <;> rw [e]
    · exact .of_eq rfl rfl
    · exact ⟨_, .send hbuild, rfl⟩
  | rxRelease => obtain e | e := execRxRelease_cases s <;> cases e.symm.trans h <;> exact .of_eq rfl rfl
  | unpack ctx => cases h; exact .of_eq (unpackHeld_tx _ s) (unpackHeld_sent _ s)
  | rst => cases h; exact .silent .reset rfl

theorem perform_encoder {o : Offer} {s t : State} (h : perform o s = .next t) : EncoderSteps s t := by
  obtain ⟨w, i, -, hw, hexec⟩ | ⟨b, -, hrx⟩ | ⟨-, rfl⟩ | ⟨-, htx, -, hsent⟩ := perform_cases h
  · exact exec_command_encoder (isCommand_of_decodeCommand hw) hexec
  · rw [execRxByte_frame hrx]; exact .of_eq rfl rfl
  · exact .silent .reset rfl
  · exact .of_eq htx hsent

/-- R33: an appended param is added to TX_XOR; R121: TX_CODE is a family's nibble. -/
theorem EncoderStep.keeps_inv {r r' : EncoderRegs} {bytes : List Byte} (h : EncoderStep r r' bytes) (hr : r.Inv) :
    r'.Inv := by
  obtain ⟨hxor, hcode⟩ := hr
  cases h with
  | keep | drop | send => exact ⟨hxor, hcode⟩
  | reset => decide
  | start c => exact ⟨rfl, by rw [ofNibble_nibble]; rfl⟩
  | append b hcnt =>
    refine ⟨?_, hcode⟩
    rw [params_append hcnt, xorSum_snoc, ← hxor]

theorem WholeFrames.nil : WholeFrames [] := ⟨[], by simp, rfl⟩

theorem WholeFrames.append {a b : List Byte} (ha : WholeFrames a) (hb : WholeFrames b) : WholeFrames (a ++ b) := by
  obtain ⟨fs, hfs, rfl⟩ := ha
  obtain ⟨gs, hgs, rfl⟩ := hb
  exact ⟨fs ++ gs, List.forall_mem_append.2 ⟨hfs, hgs⟩, by rw [List.map_append, List.flatten_append]⟩

theorem WholeFrames.outboundBytes (c : CodeFamily) {params : List Byte} (h : params.length ≤ 15) :
    WholeFrames (outboundBytes c.nibble params) :=
  ⟨[(c, params)], by simpa using h, by simp⟩

theorem params_length (r : EncoderRegs) : r.params.length = r.cnt.toNat := by
  rw [EncoderRegs.params, List.length_take, Vector.length_toList]
  omega

/-- What TX_SEND emits under the encoder's invariant is the frame of TX_CODE's family and the params (R75, R120, R123). -/
theorem sentBytes_eq_outboundBytes {r : EncoderRegs} (hr : r.Inv) : ∃ c : CodeFamily,
    [0xFF, 0xFE, joinNibbles r.code r.cnt] ++ r.params ++ [r.xor] = outboundBytes c.nibble r.params := by
  obtain ⟨hxor, hcode⟩ := hr
  obtain ⟨c, hc⟩ := Option.isSome_iff_exists.1 hcode
  refine ⟨c, ?_⟩
  rw [outboundBytes, headerByte, params_length, BitVec.ofNat_toNat, BitVec.setWidth_eq, ← ofNibble_eq_some.1 hc, ← hxor]

theorem EncoderStep.emits_wholeFrames {r r' : EncoderRegs} {bytes : List Byte} (h : EncoderStep r r' bytes) (hr : r.Inv) :
    WholeFrames bytes := by
  cases h with
  | keep | reset | start | append | drop => exact .nil
  | send =>
    obtain ⟨c, hc⟩ := sentBytes_eq_outboundBytes hr
    rw [hc]
    exact .outboundBytes c (by rw [params_length]; omega)

/-- Settles O15: every offer is an `EncoderStep`, which keeps the encoder's invariant and emits whole frames. -/
theorem transmitStreamStaysWholeFrames : Obligations.TransmitStreamStaysWholeFrames := by
  intro s t htx hsent hstep
  refine step_keeps (p := fun s => WholeFrames s.sent ∧ s.tx.Inv) (fun _ _ => id) ?_ hstep ⟨hsent, htx⟩
  intro o s t hperform ⟨hsent, htx⟩
  obtain ⟨bytes, henc, hbytes⟩ := perform_encoder hperform
  exact ⟨hbytes ▸ hsent.append (henc.emits_wholeFrames htx), henc.keeps_inv htx⟩

/-! ### The decoder -/

namespace DecoderRegs

/-! What the invariant says in each RX_STATE. -/

theorem inv_of_preamble {r : DecoderRegs} (h : r.state = .pre0 ∨ r.state = .pre1) : r.Inv := by
  obtain h | h := h <;> simp [Inv, ProgressHolds, ChecksumHolds, VerdictHolds, PreambleHolds, h]

theorem inv_hdr {r : DecoderRegs} (h : r.state = .hdr) : r.Inv ↔ r.pre = r.kind.preamble := by
  simp [Inv, ProgressHolds, ChecksumHolds, VerdictHolds, PreambleHolds, h]

theorem inv_pay {r : DecoderRegs} (h : r.state = .pay) : r.Inv ↔
    r.idx.toNat < headerLength r.hdr ∧ r.xor = xorSum (r.hdr :: r.buf.toList.take r.idx.toNat) ∧
      r.pre = r.kind.preamble := by
  simp [Inv, ProgressHolds, ChecksumHolds, VerdictHolds, PreambleHolds, h]

theorem inv_chk {r : DecoderRegs} (h : r.state = .chk) : r.Inv ↔
    r.idx.toNat = headerLength r.hdr ∧ r.xor = xorSum (r.hdr :: r.buf.toList.take r.idx.toNat) ∧
      r.pre = r.kind.preamble := by
  simp [Inv, ProgressHolds, ChecksumHolds, VerdictHolds, PreambleHolds, h]

theorem inv_ready {r : DecoderRegs} (h : r.state = .ready) : r.Inv ↔
    r.idx.toNat = headerLength r.hdr ∧ r.xor = xorSum (r.hdr :: r.buf.toList.take r.idx.toNat) ∧
      r.chk = r.xor ∧ r.pre = r.kind.preamble := by
  simp [Inv, ProgressHolds, ChecksumHolds, VerdictHolds, PreambleHolds, h]

theorem inv_ckerr {r : DecoderRegs} (h : r.state = .ckerr) : r.Inv ↔
    r.idx.toNat = headerLength r.hdr ∧ r.xor = xorSum (r.hdr :: r.buf.toList.take r.idx.toNat) ∧
      r.chk ≠ r.xor ∧ r.pre = r.kind.preamble := by
  simp [Inv, ProgressHolds, ChecksumHolds, VerdictHolds, PreambleHolds, h]

theorem inv_desync {r : DecoderRegs} (h : r.state = .desync) : r.Inv ↔ r.pre ≠ 0xFFFE ∧ r.pre ≠ 0xFFFD := by
  simp [Inv, ProgressHolds, ChecksumHolds, VerdictHolds, PreambleHolds, h]

end DecoderRegs

theorem rxPre1_inv (b : Byte) (s : State) : (rxPre1 b s).rx.Inv := by
  unfold rxPre1
  dsimp only
  split
  next kind hkind => exact (DecoderRegs.inv_hdr rfl).2 (ofPreamble_eq_some.1 hkind)
  next hkind => exact (DecoderRegs.inv_desync rfl).2 (ofPreamble_eq_none.1 hkind)

theorem headerLength_eq_zero {h : Byte} : headerLength h = 0 ↔ loNibble h = 0 := by
  rw [headerLength, ← BitVec.toNat_inj]; rfl

/-- R144: the header alone is what RX_XOR covers, and length 0 leaves no payload to wait for. -/
theorem rxHeader_inv {s : State} (hs : s.rx.Inv) (hstate : s.rx.state = .hdr) (b : Byte) : (rxHeader b s).rx.Inv := by
  have hpre : s.rx.pre = s.rx.kind.preamble := (DecoderRegs.inv_hdr hstate).1 hs
  have hxor : b = xorSum [b] := by simp
  by_cases hlen : loNibble b = 0
  · exact (DecoderRegs.inv_chk (if_pos hlen)).2 ⟨(headerLength_eq_zero.2 hlen).symm, hxor, hpre⟩
  · exact (DecoderRegs.inv_pay (if_neg hlen)).2 ⟨Nat.pos_of_ne_zero (mt headerLength_eq_zero.1 hlen), hxor, hpre⟩

/-- R145: one more payload byte is stored, counted and added to RX_XOR. -/
theorem rxPayload_inv {s : State} (hs : s.rx.Inv) (hstate : s.rx.state = .pay) (hidx : s.rx.idx.toNat < 15) (b : Byte) :
    DecoderRegs.Inv { s.rx with
      buf := s.rx.buf.setIfInBounds s.rx.idx.toNat b
      xor := s.rx.xor ^^^ b
      idx := s.rx.idx + 1
      state := if s.rx.idx + 1 = loNibble s.rx.hdr then .chk else .pay } := by
  obtain ⟨hlt, hsum, hpre⟩ := (DecoderRegs.inv_pay hstate).1 hs
  have hsucc : (s.rx.idx + 1).toNat = s.rx.idx.toNat + 1 := by
    rw [BitVec.toNat_add]; simp; omega
  have hxor : s.rx.xor ^^^ b =
      xorSum (s.rx.hdr :: (s.rx.buf.setIfInBounds s.rx.idx.toNat b).toList.take (s.rx.idx + 1).toNat) := by
    rw [hsucc, take_setIfInBounds _ hidx, ← List.cons_append, xorSum_snoc, ← hsum]
  by_cases hlast : s.rx.idx + 1 = loNibble s.rx.hdr
  · exact (DecoderRegs.inv_chk (if_pos hlast)).2 ⟨congrArg BitVec.toNat hlast, hxor, hpre⟩
  · have hne : (s.rx.idx + 1).toNat ≠ headerLength s.rx.hdr := fun e => hlast (BitVec.eq_of_toNat_eq e)
    have hmore : (s.rx.idx + 1).toNat < headerLength s.rx.hdr := by omega
    exact (DecoderRegs.inv_pay (if_neg hlast)).2 ⟨hmore, hxor, hpre⟩

/-- R146: the check byte decides between READY and CKERR. -/
theorem rxCheck_inv {s : State} (hs : s.rx.Inv) (hstate : s.rx.state = .chk) (b : Byte) : (rxCheck b s).rx.Inv := by
  obtain ⟨hall, hsum, hpre⟩ := (DecoderRegs.inv_chk hstate).1 hs
  by_cases hright : b = s.rx.xor
  · exact (DecoderRegs.inv_ready (if_pos hright)).2 ⟨hall, hsum, hright, hpre⟩
  · exact (DecoderRegs.inv_ckerr (if_neg hright)).2 ⟨hall, hsum, hright, hpre⟩

theorem execRxByte_keeps_inv {b : Byte} {s t : State} (h : execRxByte b s = .next t) (hs : s.rx.Inv) : t.rx.Inv := by
  obtain ⟨-, e⟩ | ⟨-, e⟩ | ⟨hstate, e⟩ | ⟨-, -, e⟩ | ⟨hstate, hidx, e⟩ | ⟨hstate, e⟩ | ⟨-, e⟩ :=
    execRxByte_cases b s <;> cases e.symm.trans h
  · exact DecoderRegs.inv_of_preamble (.inr rfl)
  · exact rxPre1_inv b (take s)
  · exact rxHeader_inv (s := take s) hs hstate b
  · exact rxPayload_inv hs hstate hidx b
  · exact rxCheck_inv (s := take s) hs hstate b
  · exact hs

/-- A command leaves the decoder as it is, releases the held frame or resets it. -/
theorem exec_command_decoder {i : Instr} {s t : State} (hi : IsCommand i) (h : exec i s = .next t) :
    t.rx = s.rx ∨ t.rx = { s.rx with state := .pre0 } ∨ t.rx = .reset := by
  cases hi with
  | cksClr | cksAdd | cksVerify | txStart | bcd => cases h; exact .inl rfl
  | txParam b => rw [execTxParam_frame h]; exact .inl rfl
  | txSend => cases h; exact .inl (sendFrame_rx _ s)
  | rxRelease =>
    obtain e | e := execRxRelease_cases s <;> cases e.symm.trans h
    · exact .inr (.inl rfl)
    · exact .inl rfl
  | unpack ctx => cases h; exact .inl (unpackHeld_rx _ s)
  | rst => cases h; exact .inr (.inr rfl)

theorem perform_keeps_decoder_inv {o : Offer} {s t : State} (h : perform o s = .next t) (hs : s.rx.Inv) : t.rx.Inv := by
  obtain ⟨w, i, -, hw, hexec⟩ | ⟨b, -, hrx⟩ | ⟨-, rfl⟩ | ⟨hkeep, -⟩ := perform_cases h
  · obtain e | e | e := exec_command_decoder (isCommand_of_decodeCommand hw) hexec <;> rw [e]
    · exact hs
    · exact DecoderRegs.inv_of_preamble (.inl rfl)
    · exact DecoderRegs.inv_of_preamble (.inl rfl)
  · exact execRxByte_keeps_inv hrx hs
  · exact DecoderRegs.inv_of_preamble (.inl rfl)
  · rwa [hkeep]

/-! ### The result registers -/

/-- R42, R43: a message whose fields fit the result registers. -/
def Message.Fits : Message → Prop
  | .cmdResult _ pay => pay.length ≤ 15
  | .progResult cv _ => cv.toNat ≤ 1024
  | .accState _ _ _ _ _ => True
  | .trackStatus _ => True

/-- R177: the CV numbers run from 0 to 1024. -/
theorem cvnum_le {sub cvb : Byte} {cv : BitVec 11} (h : cvnum sub cvb = some cv) : cv.toNat ≤ 1024 := by
  have hcvb := cvb.isLt
  unfold cvnum at h
  split_ifs at h
  all_goals
    rw [← Option.some.inj h]
    simp
  all_goals omega

theorem statusCase_fits {cfg : Config} {kind : FrameKind} {payload : List Byte} {m : Message}
    (h : statusCase cfg kind payload = some m) : m.Fits := by
  unfold statusCase at h
  split at h
  · obtain ⟨cv, hcv, rfl⟩ := Option.map_eq_some_iff.1 h
    exact cvnum_le hcv
  · unfold trackStatusCase at h
    split_ifs at h <;> cases h <;> trivial
  · cases h

theorem ifaceCase_fits {payload : List Byte} {m : Message} (hlen : payload.length ≤ 15) (h : ifaceCase payload = some m) :
    m.Fits := by
  cases payload with
  | nil => cases h
  | cons sub data =>
    simp only [ifaceCase] at h
    split_ifs at h
    cases h
    exact Nat.le_of_succ_le hlen

theorem ifstatusStatusCase_fits {payload : List Byte} {m : Message} (h : ifstatusStatusCase payload = some m) : m.Fits := by
  unfold ifstatusStatusCase at h
  split at h <;> cases h
  exact Nat.succ_le_succ (Nat.zero_le _)

theorem accReportCase_fits {cfg : Config} {payload : List Byte} {m : Message} (h : accReportCase cfg payload = some m) :
    m.Fits := by
  unfold accReportCase at h
  split at h <;> cases h
  trivial

/-- R172 to R180: whatever a payload of at most 15 bytes decodes to fits. -/
theorem dispatch_fits {cfg : Config} {code : Nibble} {payload : List Byte} {kind : FrameKind} {ctx : Bool} {m : Message}
    (hlen : payload.length ≤ 15) (h : dispatch cfg code payload kind ctx = some m) : m.Fits := by
  unfold dispatch at h
  split at h
  · cases ctx with
    | true => cases h; exact hlen
    | false => exact ifstatusStatusCase_fits h
  · exact statusCase_fits h
  · exact ifaceCase_fits hlen h
  · exact accReportCase_fits h
  all_goals cases h

theorem loNibble_and_0xF0 (b : Byte) : loNibble (b &&& 0xF0) = 0x0 := by
  revert b; decide

/-- R42: RES_PAY is 0x00 from RES_PLEN on. -/
theorem payBuffer_zero_above {pay : List Byte} (hlen : pay.length ≤ 15) (i : Fin 15)
    (hi : (BitVec.ofNat 4 pay.length).toNat ≤ i.val) : (payBuffer pay)[i] = 0x00 := by
  rw [BitVec.toNat_ofNat, Nat.mod_eq_of_lt (by omega)] at hi
  rw [payBuffer_getElem, List.getD_eq_default _ _ hi]

theorem zeroBuffer_getElem (i : Fin 15) : zeroBuffer[i] = 0x00 := by
  simp [zeroBuffer]

/-- R181: a message leaves the fields of the other variants 0. -/
theorem messageFields_otherFieldsZero (m : Message) (code : Byte) (bcst : Bool) :
    ResultRegs.OtherFieldsZero { messageFields m with code := code, bcst := bcst } := by
  unfold ResultRegs.OtherFieldsZero
  cases m with
  | cmdResult status pay => cases status <;> simp [messageFields, ResultRegs.reset]
  | progResult cv value => simp [messageFields, ResultRegs.reset]
  | accState addr undet akind nib statev => simp [messageFields, ResultRegs.reset]
  | trackStatus track => simp [messageFields, ResultRegs.reset]

/-- R39, R40, R42, R43: the fields of a message that fits are in their ranges. -/
theorem messageFields_rangesHold {m : Message} (hm : m.Fits) {code : Byte} (hcode : loNibble code = 0x0) (bcst : Bool) :
    ResultRegs.RangesHold { messageFields m with code := code, bcst := bcst } := by
  match m with
  | .cmdResult .ok pay => exact ⟨hcode, fun _ => rfl, Nat.zero_le _, payBuffer_zero_above hm⟩
  | .cmdResult (.raw b) pay => exact ⟨hcode, nofun, Nat.zero_le _, payBuffer_zero_above hm⟩
  | .progResult cv value => exact ⟨hcode, fun _ => rfl, hm, fun i _ => zeroBuffer_getElem i⟩
  | .accState .. | .trackStatus _ => exact ⟨hcode, fun _ => rfl, Nat.zero_le _, fun i _ => zeroBuffer_getElem i⟩

theorem ResultRegs.reset_inv : ResultRegs.Inv .reset := by decide

/-- UNPACK clears the result or writes a message over it. -/
theorem unpackHeld_res_cases (m : Option Message) (s : State) :
    (unpackHeld m s).res = .reset ∨ ∃ msg, m = some msg ∧
      (unpackHeld m s).res = { messageFields msg with code := s.rx.hdr &&& 0xF0, bcst := rxKindFlag s.rx.kind } := by
  unfold unpackHeld
  split
  · exact .inl rfl
  · split
    · exact .inl rfl
    · cases m with
      | none => exact .inl rfl
      | some msg => exact .inr ⟨msg, rfl, rfl⟩

theorem exec_unpack_res_inv {ctx : Bool} {s t : State} (h : exec (.unpack ctx) s = .next t) : t.res.Inv := by
  cases h
  obtain e | ⟨m, hm, e⟩ :=
    unpackHeld_res_cases (dispatch s.cfg (hiNibble s.rx.hdr) s.rx.payload s.rx.kind ctx) s <;> rw [e]
  · exact ResultRegs.reset_inv
  · have hlen : s.rx.payload.length ≤ 15 := by rw [payload_length]; exact headerLength_le _
    exact ⟨messageFields_otherFieldsZero m _ _,
      messageFields_rangesHold (dispatch_fits hlen hm) (loNibble_and_0xF0 _) _⟩

/-- Of the commands, UNPACK and RST write the result registers. -/
theorem exec_command_result {i : Instr} {s t : State} (hi : IsCommand i) (h : exec i s = .next t) :
    t.res = s.res ∨ t.res = .reset ∨ ∃ ctx, i = .unpack ctx := by
  cases hi with
  | cksClr | cksAdd | cksVerify | txStart | bcd => cases h; exact .inl rfl
  | txParam b => rw [execTxParam_frame h]; exact .inl rfl
  | txSend => cases h; exact .inl (sendFrame_res _ s)
  | rxRelease => obtain e | e := execRxRelease_cases s <;> cases e.symm.trans h <;> exact .inl rfl
  | unpack ctx => exact .inr (.inr ⟨ctx, rfl⟩)
  | rst => cases h; exact .inr (.inl rfl)

theorem perform_keeps_result_inv {o : Offer} {s t : State} (h : perform o s = .next t) (hs : s.res.Inv) : t.res.Inv := by
  obtain ⟨w, i, -, hw, hexec⟩ | ⟨b, -, hrx⟩ | ⟨-, rfl⟩ | ⟨-, -, hkeep, -⟩ := perform_cases h
  · obtain e | e | ⟨ctx, rfl⟩ := exec_command_result (isCommand_of_decodeCommand hw) hexec
    · rwa [e]
    · rw [e]; exact ResultRegs.reset_inv
    · exact exec_unpack_res_inv hexec
  · rwa [execRxByte_frame hrx]
  · exact ResultRegs.reset_inv
  · rwa [hkeep]

/-! ### The machine -/

theorem perform_keeps_inv {o : Offer} {s t : State} (h : perform o s = .next t) (hs : s.Inv) : t.Inv := by
  obtain ⟨hrx, htx, hres⟩ := hs
  obtain ⟨bytes, henc, -⟩ := perform_encoder h
  exact ⟨perform_keeps_decoder_inv h hrx, henc.keeps_inv htx, perform_keeps_result_inv h hres⟩

/-- Settles O58: unit by unit, since no offer's effect on one unit depends on another's invariant. -/
theorem everyStepKeepsTheInvariant : Obligations.EveryStepKeepsTheInvariant := fun _ _ hs hstep =>
  step_keeps (fun _ _ => id) (fun _ _ _ => perform_keeps_inv) hstep hs

end Sys2Proof.Machine

/-! ## The statements of 20_memory.md: the streams, the read port, and runs of offers -/

namespace Sys2Proof.Machine

/-! ### What performing each kind of offer is -/

theorem perform_legal {w : CommandWord} {i : Instr} (hw : decodeCommand w = .ok i) (s : State) :
    perform (.command w) s = exec i s := by
  simp only [perform, hw]

theorem perform_illegal {w : CommandWord} {e : Reject} (hw : decodeCommand w = .error e) (s : State) :
    perform (.command w) s = .next (illegalWord s) := by
  simp only [perform, hw]

theorem perform_receive_nil {s : State} (h : s.pending = []) : perform .receive s = .next s := by
  simp only [perform, h]

/-- Settles O52: a step performs the oldest offer, and each clause is one kind of offer. -/
theorem stepRunsTheDecodedInstruction : Obligations.StepRunsTheDecodedInstruction := by
  intro s o later hoffers
  rw [step_cons hoffers]
  refine ⟨?_, ?_, ?_, ?_⟩
  · rintro w i rfl hw
    exact perform_legal hw _
  · rintro b more rfl hp
    exact perform_receive (s := s.withOffers later) hp
  · rintro rfl hp
    exact perform_receive_nil (s := s.withOffers later) hp
  · rintro a rfl
    rfl

/-! ### Commands: they always complete, and what they leave to the streams -/

/-- No command stops the machine: its errors are next states (R239). -/
theorem exec_command_total {i : Instr} (hi : IsCommand i) (s : State) : ∃ t, exec i s = .next t := by
  cases hi with
  | cksClr | cksAdd | cksVerify | txStart | txSend | unpack | bcd | rst => exact ⟨_, rfl⟩
  | txParam b => obtain ⟨-, e⟩ | ⟨-, -, e⟩ | ⟨-, -, e⟩ := execTxParam_cases b s <;> exact ⟨_, e⟩
  | rxRelease => obtain e | e := execRxRelease_cases s <;> exact ⟨_, e⟩

@[simp] theorem sendFrame_pending (bytes : List Byte) (s : State) : (sendFrame bytes s).pending = s.pending := by
  rw [sendFrame_frame]

theorem exec_command_pending {i : Instr} {s t : State} (hi : IsCommand i) (h : exec i s = .next t) :
    t.pending = s.pending := by
  cases hi with
  | cksClr | cksAdd | cksVerify | txStart | bcd | rst => cases h; rfl
  | txParam b => rw [execTxParam_frame h]
  | txSend => cases h; exact sendFrame_pending _ s
  | rxRelease => obtain e | e := execRxRelease_cases s <;> cases e.symm.trans h <;> rfl
  | unpack ctx => cases h; exact unpackHeld_pending _ s

/-- Of the commands, only TX_SEND in BUILD emits (R59, R123). -/
theorem exec_command_sent {i : Instr} {s t : State} (hi : IsCommand i) (h : exec i s = .next t) :
    t.sent = s.sent ∨
    (i = .txSend ∧ s.tx.state = .build ∧
      t.sent = s.sent ++ ([0xFF, 0xFE, joinNibbles s.tx.code s.tx.cnt] ++ s.tx.params ++ [s.tx.xor])) := by
  cases hi with
  | cksClr | cksAdd | cksVerify | txStart | bcd | rst => cases h; exact .inl rfl
  | txParam b => rw [execTxParam_frame h]; exact .inl rfl
  | txSend =>
    cases h
    obtain ⟨-, e⟩ | ⟨hbuild, e⟩ :=
      sendFrame_cases ([0xFF, 0xFE, joinNibbles s.tx.code s.tx.cnt] ++ s.tx.params ++ [s.tx.xor]) s <;> rw [e]
    · exact .inl rfl
    · exact .inr ⟨rfl, hbuild, rfl⟩
  | rxRelease => obtain e | e := execRxRelease_cases s <;> cases e.symm.trans h <;> exact .inl rfl
  | unpack ctx => cases h; exact .inl (unpackHeld_sent _ s)

/-- R79: TX_SEND has one word. -/
theorem decodeCommand_eq_txSend {w : CommandWord} (h : decodeCommand w = .ok .txSend) : w = 0x1200 := by
  obtain ⟨e, -⟩ | ⟨b, e, -⟩ | ⟨b, e, -⟩ | ⟨c, e, -⟩ | ⟨b, e, -⟩ | ⟨-, e⟩ | ⟨e, -⟩ | ⟨ctx, e, -⟩ | ⟨b, e, -⟩ | ⟨e, -⟩ :=
    decodeCommand_cases h <;> cases e
  rfl

/-- Settles O16: of all offers only TX_SEND's word, with a frame under construction, adds to the transmit stream. -/
theorem onlyTxSendEmits : Obligations.OnlyTxSendEmits := by
  intro s t hstep
  obtain ⟨-, rfl⟩ | ⟨o, later, u, hoffers, hperform, rfl⟩ := step_eq_next hstep
  · exact .inl rfl
  obtain ⟨w, i, rfl, hw, hexec⟩ | ⟨b, -, hrx⟩ | ⟨-, rfl⟩ | ⟨-, -, -, hsent⟩ := perform_cases hperform
  · obtain hsent | ⟨rfl, hbuild, hsent⟩ := exec_command_sent (isCommand_of_decodeCommand hw) hexec
    · exact .inl hsent
    · exact .inr ⟨by rw [hoffers, decodeCommand_eq_txSend hw]; rfl, hbuild, hsent⟩
  · rw [execRxByte_frame hrx]; exact .inl rfl
  · exact .inl rfl
  · exact .inl hsent

/-! ### The receive step: it reads and writes the decoder, and takes the first pending byte -/

/-- What a byte does to the decoder depends on the decoder alone. -/
theorem receive_of_rx (b : Byte) {s t : State} (h : t.rx = s.rx) :
    receive b t = andThen (receive b s) fun u => .next { t with rx := u.rx } := by
  unfold receive
  rw [h]
  cases s.rx.state with
  | pre0 => simp [rxPre0, h]
  | pre1 => simp only [rxPre1, h]; split <;> rfl
  | hdr => simp [rxHeader, h]
  | pay => simp only [rxPayload, h]; split <;> rfl
  | chk => simp [rxCheck, h]
  | ready | ckerr | desync => simp [← h]

/-- The whole receive step: while the decoder accepts, the first pending byte goes (R140, R141). -/
theorem execRxByte_of_rx (b : Byte) {s t : State} (h : t.rx = s.rx) :
    execRxByte b t = andThen (execRxByte b s) fun u =>
      .next { t with rx := u.rx, pending := if s.rx.state.accepting then t.pending.tail else t.pending } := by
  unfold execRxByte
  rw [h]
  split
  · exact receive_of_rx b (s := take s) (t := take t) h
  · simp [← h]

theorem accepting_iff {r : RxState} : r.accepting = true ↔ r ∉ [.ready, .ckerr, .desync] := by
  cases r <;> decide

theorem execRxByte_pending {b : Byte} {s t : State} (h : execRxByte b s = .next t) :
    t.pending = if s.rx.state.accepting then s.pending.tail else s.pending := by
  have e := execRxByte_of_rx b (rfl : s.rx = s.rx)
  rw [h] at e
  exact congrArg State.pending (Host.Outcome.next.inj e)

/-- What an offer can make of the pending bytes. -/
theorem perform_pending {o : Offer} {s t : State} (h : perform o s = .next t) :
    t.pending = s.pending ∨ (∃ b, o = .arrive b ∧ t.pending = s.pending ++ [b]) ∨
    (∃ b, o = .receive ∧ s.rx.state.accepting = true ∧ s.pending = b :: t.pending) := by
  cases o with
  | command w =>
    cases hw : decodeCommand w with
    | ok i => rw [perform_legal hw] at h; exact .inl (exec_command_pending (isCommand_of_decodeCommand hw) h)
    | error e => rw [perform_illegal hw] at h; cases h; exact .inl rfl
  | receive =>
    cases hp : s.pending with
    | nil => rw [perform_receive_nil hp] at h; cases h; exact .inl hp
    | cons b more =>
      rw [perform_receive hp] at h
      have ht := execRxByte_pending h
      cases hacc : s.rx.state.accepting <;> rw [hacc, hp] at ht
      · exact .inl ht
      · exact .inr (.inr ⟨b, rfl, rfl, by rw [ht]; rfl⟩)
  | arrive b => cases h; exact .inr (.inl ⟨b, rfl, rfl⟩)
  | read a | resetInput => cases h; exact .inl rfl

/-- Settles O29: an arriving byte goes to the end; a receive step takes the first byte, and only while the decoder accepts;
every other offer leaves the pending bytes alone. -/
theorem pendingBytesAreTakenInOrder : Obligations.PendingBytesAreTakenInOrder := by
  intro s t hstep
  obtain ⟨-, rfl⟩ | ⟨o, later, u, hoffers, hperform, rfl⟩ := step_eq_next hstep
  · exact .inl rfl
  rw [hoffers]
  obtain hkeep | ⟨b, rfl, harrive⟩ | ⟨b, rfl, hacc, htake⟩ := perform_pending hperform
  · exact .inl hkeep
  · exact .inr (.inl ⟨b, rfl, harrive⟩)
  · exact .inr (.inr ⟨b, rfl, accepting_iff.1 hacc, htake⟩)

/-! ### The receive path and the transmit path (R63) -/

/-- The decoder and the pending bytes of `r`, everything else of `s`. -/
def State.withReceiver (s r : State) : State := { s with rx := r.rx, pending := r.pending }

/-- The encoder, the transmit stream and OPST of `r`, everything else of `s`. -/
def State.withTransmitter (s r : State) : State := { s with tx := r.tx, sent := r.sent, opst := r.opst }

/-- The encoder's commands (R121 to R123). -/
inductive IsEncoderCommand : Instr → Prop
  | txStart (c : CodeFamily) : IsEncoderCommand (.txStart c)
  | txParam (b : Byte) : IsEncoderCommand (.txParam b)
  | txSend : IsEncoderCommand .txSend

/-- A receive step reads and writes the decoder and the pending bytes alone. -/
theorem execRxByte_withReceiver (b : Byte) (s r : State) :
    execRxByte b (s.withReceiver r) = andThen (execRxByte b r) fun u => .next (s.withReceiver u) := by
  rw [execRxByte_of_rx b (t := s.withReceiver r) (s := r) rfl]
  cases h : execRxByte b r with
  | next u => simp [State.withReceiver, execRxByte_pending h]
  | fault e => rfl
  | refused e => rfl

/-- An encoder command reads the encoder and the transmit stream, and writes those and OPST. -/
theorem exec_withTransmitter {i : Instr} (hi : IsEncoderCommand i) {s r : State} (htx : s.tx = r.tx)
    (hsent : s.sent = r.sent) : exec i s = andThen (exec i r) fun u => .next (s.withTransmitter u) := by
  cases hi with
  | txStart c => simp [exec, execTxStart, State.withTransmitter, complete, htx, hsent]
  | txParam b =>
    simp only [exec, execTxParam, htx]
    split
    · simp [State.withTransmitter, raise, ← htx, ← hsent]
    · split <;> simp [State.withTransmitter, raise, complete, ← htx, ← hsent]
  | txSend =>
    simp only [exec, execTxSend, sendFrame, htx]
    split <;> simp [State.withTransmitter, raise, complete, emit, ← htx, ← hsent]

theorem IsEncoderCommand.isCommand {i : Instr} (hi : IsEncoderCommand i) : IsCommand i := by
  cases hi <;> constructor

theorem exec_encoderCommand_frame {i : Instr} {s t : State} (hi : IsEncoderCommand i) (h : exec i s = .next t) :
    t = s.withTransmitter t := by
  have e := exec_withTransmitter hi (rfl : s.tx = s.tx) rfl
  rw [h] at e
  exact Host.Outcome.next.inj e

/-- Settles O55: two states that agree on one path's registers and stream differ only where that path does not look. -/
theorem receiveAndTransmitShareNoState : Obligations.ReceiveAndTransmitShareNoState := by
  constructor
  · intro s t u v b hrx hpending (hu : execRxByte b s = _) (hv : execRxByte b t = _)
    have ht : t = t.withReceiver s := by simp [State.withReceiver, hrx, hpending]
    rw [ht, execRxByte_withReceiver, hu] at hv
    cases hv
    exact ⟨rfl, rfl, by rw [execRxByte_frame hu]⟩
  · intro s t x c htx hsent i hi
    have hi : IsEncoderCommand i := by
      simp only [List.mem_cons, List.not_mem_nil, or_false] at hi
      obtain rfl | rfl | rfl := hi <;> constructor
    obtain ⟨u, hu⟩ := exec_command_total hi.isCommand s
    have ht : exec i t = .next (t.withTransmitter u) := by
      rw [exec_withTransmitter hi htx.symm hsent.symm, hu]; rfl
    refine ⟨u, t.withTransmitter u, hu, ht, rfl, rfl, rfl, ?_⟩
    rw [exec_encoderCommand_frame hi hu]; rfl

/-! ### Receive steps among other commands (R63, R238) -/

/-- The commands that have nothing to do with the decoder: all but RX_RELEASE, UNPACK and RST. -/
inductive IgnoresDecoder : Instr → Prop
  | cksClr : IgnoresDecoder .cksClr
  | cksAdd (b : Byte) : IgnoresDecoder (.cksAdd b)
  | cksVerify (e : Byte) : IgnoresDecoder (.cksVerify e)
  | bcd (b : Byte) : IgnoresDecoder (.bcd b)
  | encoder {i : Instr} (hi : IsEncoderCommand i) : IgnoresDecoder i

theorem IgnoresDecoder.isCommand {i : Instr} (hi : IgnoresDecoder i) : IsCommand i := by
  cases hi with
  | encoder hi => exact hi.isCommand
  | cksClr | cksAdd | cksVerify | bcd => constructor

/-- Such a command neither reads nor writes the decoder and the pending bytes. -/
theorem exec_withReceiver {i : Instr} (hi : IgnoresDecoder i) {s t : State} (h : exec i s = .next t) (r : State) :
    exec i (s.withReceiver r) = .next (t.withReceiver r) := by
  cases hi with
  | cksClr | cksAdd | cksVerify | bcd => cases h; rfl
  | encoder hi =>
    rw [exec_withTransmitter hi (s := s.withReceiver r) (r := s) rfl rfl, h, exec_encoderCommand_frame hi h]
    rfl

/-- Settles O54: the receive step changes only what the command leaves alone, and the other way round, so either order makes both
changes. -/
theorem receiveStepsCommuteWithOtherCommands : Obligations.ReceiveStepsCommuteWithOtherCommands := by
  intro s x b c i hi
  have hi : IgnoresDecoder i := by
    simp only [List.mem_cons, List.not_mem_nil, or_false] at hi
    obtain rfl | rfl | rfl | rfl | rfl | rfl | rfl := hi
    · exact .cksClr
    · exact .cksAdd x
    · exact .cksVerify x
    · exact .encoder (.txStart c)
    · exact .encoder (.txParam x)
    · exact .encoder .txSend
    · exact .bcd x
  obtain ⟨t, ht⟩ := exec_command_total hi.isCommand s
  have hkeep : t = t.withReceiver s := Host.Outcome.next.inj (ht.symm.trans (exec_withReceiver hi ht s))
  have hleft : exec (.rxByte b) t = andThen (execRxByte b s) fun u => .next (t.withReceiver u) := by
    rw [hkeep]; exact execRxByte_withReceiver b t s
  rw [ht, andThen_next, hleft]
  show _ = andThen (execRxByte b s) (exec i)
  cases hrx : execRxByte b s with
  | next u =>
    have hu : u = s.withReceiver u := execRxByte_frame hrx
    rw [andThen_next, andThen_next, hu, exec_withReceiver hi ht]
    rfl
  | fault e => rfl
  | refused e => rfl

/-! ### Deliveries (R60, R61) -/

/-- R145: in PAY fewer than the at most 15 announced bytes have come. -/
theorem DecoderRegs.idx_ne_15_of_pay {r : DecoderRegs} (hr : r.Inv) (hstate : r.state = .pay) : r.idx ≠ 15 := by
  intro hidx
  obtain ⟨hlt, -⟩ := (inv_pay hstate).1 hr
  have hlen := headerLength_le r.hdr
  have h15 : r.idx.toNat = 15 := by rw [hidx]; rfl
  omega

/-- Under the invariant a receive step does not stop. -/
theorem execRxByte_total {s : State} (hs : s.rx.Inv) (b : Byte) : ∃ t, execRxByte b s = .next t := by
  obtain ⟨-, e⟩ | ⟨-, e⟩ | ⟨-, e⟩ | ⟨hstate, hidx, -⟩ | ⟨-, -, e⟩ | ⟨-, e⟩ | ⟨-, e⟩ := execRxByte_cases b s
  case inr.inr.inr.inl => exact absurd hidx (DecoderRegs.idx_ne_15_of_pay hs hstate)
  all_goals exact ⟨_, e⟩

/-- Under the decoder's invariant no offer stops the machine. -/
theorem perform_total (o : Offer) {s : State} (hs : s.rx.Inv) : ∃ t, perform o s = .next t := by
  cases o with
  | command w =>
    cases hw : decodeCommand w with
    | ok i => rw [perform_legal hw]; exact exec_command_total (isCommand_of_decodeCommand hw) s
    | error e => exact ⟨_, perform_illegal hw s⟩
  | receive =>
    cases hp : s.pending with
    | nil => exact ⟨_, perform_receive_nil hp⟩
    | cons b more => rw [perform_receive hp]; exact execRxByte_total hs b
  | read a | arrive b | resetInput => exact ⟨_, rfl⟩

theorem performAll_total (os : List Offer) {s : State} (hs : s.rx.Inv) : ∃ t, performAll os s = .next t := by
  induction os generalizing s with
  | nil => exact ⟨s, rfl⟩
  | cons o os ih =>
    obtain ⟨t, ht⟩ := perform_total o hs
    rw [performAll, ht]
    exact ih (perform_keeps_decoder_inv ht hs)

/-- As many receive offers as bytes are pending. -/
def drain (s : State) : Result := performAll (List.replicate s.pending.length .receive) s

theorem receives_eq_drain (s : State) : receives s.pending.length s = drain s := receives_eq_performAll _ s

theorem arrive_nil (s : State) : arrive [] s = s := by
  simp [arrive]

theorem arrive_append (bytes more : List Byte) (s : State) : arrive more (arrive bytes s) = arrive (bytes ++ more) s := by
  simp [arrive]

theorem execRxByte_of_not_accepting (b : Byte) {s : State} (h : s.rx.state.accepting = false) :
    execRxByte b s = .next s := by
  simp [execRxByte, h]

/-- One receive offer more at the beginning makes no difference to draining. -/
theorem drain_perform_receive {s t : State} (h : perform .receive s = .next t) : drain t = drain s := by
  cases hp : s.pending with
  | nil => cases (perform_receive_nil hp).symm.trans h; rfl
  | cons b more =>
    have hdrain : drain s = performAll (List.replicate more.length .receive) t := by
      rw [drain, hp, List.length_cons, List.replicate_succ, performAll, h, andThen_next]
    have hrx : execRxByte b s = .next t := perform_receive hp ▸ h
    cases hacc : s.rx.state.accepting with
    | true =>
      have hpending := execRxByte_pending hrx
      rw [hacc, hp] at hpending
      rw [hdrain, drain, hpending]; rfl
    | false =>
      cases (execRxByte_of_not_accepting b hacc).symm.trans hrx
      rfl

/-- A receive step takes the same byte and has the same effect whether further bytes come with it or after it. -/
theorem perform_receive_arrive {s t : State} (hne : s.pending ≠ []) (h : perform .receive s = .next t)
    (bytes : List Byte) : perform .receive (arrive bytes s) = .next (arrive bytes t) := by
  obtain ⟨b, more, hp⟩ := List.exists_cons_of_ne_nil hne
  have hrx : execRxByte b s = .next t := perform_receive hp ▸ h
  have harrive : (arrive bytes s).pending = b :: (more ++ bytes) := by rw [arrive_pending, hp]; rfl
  have ht : t.pending ++ bytes =
      if s.rx.state.accepting then (arrive bytes s).pending.tail else (arrive bytes s).pending := by
    rw [execRxByte_pending hrx, arrive_pending, hp]; split <;> rfl
  rw [perform_receive harrive, execRxByte_of_rx b (s := s) (t := arrive bytes s) rfl, hrx, andThen_next, ← ht,
    execRxByte_frame hrx]
  rfl

/-- However the bytes come, draining at the end leaves what draining leaves when they all come first. -/
theorem drain_performAll {os : List Offer} (hos : ∀ o ∈ os, o = .receive ∨ ∃ b, o = .arrive b) {s t : State}
    (h : performAll os s = .next t) : drain t = drain (arrive (os.filterMap Offer.arriving) s) := by
  induction os generalizing s with
  | nil => cases h; rw [List.filterMap_nil, arrive_nil]
  | cons o os ih =>
    obtain ⟨ho, hos⟩ := List.forall_mem_cons.1 hos
    obtain ⟨u, hu, ht⟩ := andThen_eq_next.1 h
    rw [ih hos ht]
    obtain rfl | ⟨b, rfl⟩ := ho
    · rw [List.filterMap_cons_none rfl]
      by_cases hne : s.pending = []
      · cases (perform_receive_nil hne).symm.trans hu; rfl
      · exact drain_perform_receive (perform_receive_arrive hne hu _)
    · cases hu
      rw [arrive_append]; rfl

/-- Settles O28: no step of the run stops, and draining after it comes to draining the bytes delivered at once. -/
theorem splitDeliveriesDecodeAlike : Obligations.SplitDeliveriesDecodeAlike := by
  intro s os hs _ hos
  obtain ⟨t, ht⟩ := performAll_total os hs
  obtain ⟨u, hu⟩ : ∃ u, drain (arrive (os.filterMap Offer.arriving) s) = .next u :=
    performAll_total _ (s := arrive _ s) hs
  refine ⟨t, u, ?_, ?_, ?_⟩
  · rw [runs_eq_performAll, ht]
  · rw [receives_eq_drain, drain_performAll hos ht, hu]
  · exact (receives_eq_drain (arrive _ s)).trans hu

/-! ### Runs from reset (R62, R260) -/

/-- A predicate that lets no step stop, and that every step keeps, holds all along every run. -/
theorem run_keeps {p : State → Prop} (htotal : ∀ s, p s → ∃ t, step s = .next t)
    (hkeeps : ∀ s t, step s = .next t → p s → p t) (n : Nat) {s : State} (hs : p s) :
    ∃ t, Sys2Proof.core.run n s = .next t ∧ p t := by
  induction n generalizing s with
  | zero => exact ⟨s, rfl, hs⟩
  | succ n ih =>
    obtain ⟨t, ht⟩ := htotal s hs
    rw [run_succ, ht]
    exact ih (hkeeps s t ht hs)

theorem step_total {s : State} (hs : s.rx.Inv) : ∃ t, step s = .next t := by
  cases ho : s.offers with
  | nil => exact ⟨s, step_nil ho⟩
  | cons o later => rw [step_cons ho]; exact perform_total o hs

theorem State.reset_inv : State.reset.Inv :=
  ⟨DecoderRegs.inv_of_preamble (.inl rfl), by decide, ResultRegs.reset_inv⟩

/-- Settles O60: reset meets the invariant, under which a step does not stop, keeps the invariant and emits whole frames. -/
theorem everyRunFromResetIsSafe : Obligations.EveryRunFromResetIsSafe := by
  intro cfg pending os n
  refine run_keeps (p := fun s => s.Inv ∧ WholeFrames s.sent ∧ s.cfg = cfg) ?_ ?_ n ⟨State.reset_inv, .nil, rfl⟩
  · intro s ⟨⟨hrx, _⟩, _⟩
    exact step_total hrx
  · intro s t hstep ⟨hinv, hsent, hcfg⟩
    have ⟨_, htx, _⟩ := hinv
    obtain ⟨hframes, -⟩ := transmitStreamStaysWholeFrames s t htx hsent hstep
    obtain ⟨-, hkeep⟩ := onlyCommandsWriteOpstAndNothingTheParameters s t hstep
    exact ⟨everyStepKeepsTheInvariant s t hinv hstep, hframes, hkeep.trans hcfg⟩

/-! ### The read map -/

/-- A table of codes, for a coding that tells its arguments apart: each row says that the argument has its code. -/
theorem eq_iff_code {α β : Type} {code : α → β} (hcode : Function.Injective code) {table : List (α × β)}
    (htable : ∀ p ∈ table, p.2 = code p.1) (x : α) : ∀ p ∈ table, x = p.1 ↔ code x = p.2 := by
  intro p hp
  rw [htable p hp, hcode.eq_iff]

/-- R57: the bits of STATUS. -/
theorem statusByte_bits (s : State) :
    (statusByte s).extractLsb' 0 3 = s.rx.state.bits ∧ (statusByte s).getLsbD 3 = rxKindFlag s.rx.kind ∧
    (statusByte s).getLsbD 4 = s.tx.state.flag ∧ (statusByte s).getLsbD 5 = s.cks.eq ∧
    (statusByte s).extractLsb' 6 2 = 0 := by
  unfold statusByte
  generalize s.rx.state.bits = st, rxKindFlag s.rx.kind = kind, s.tx.state.flag = tx, s.cks.eq = eq
  revert st kind tx eq
  decide

/-- R58: the bits of RES_FLAGS. -/
theorem resFlags_bits (r : ResultRegs) :
    (resFlags r).getLsbD 0 = r.stkind ∧ (resFlags r).getLsbD 1 = r.bcst ∧ (resFlags r).getLsbD 2 = r.undet ∧
    (resFlags r).getLsbD 3 = r.nib ∧ (resFlags r).extractLsb' 4 2 = r.akind.bits ∧
    (resFlags r).extractLsb' 6 2 = r.track.bits := by
  unfold resFlags
  generalize r.stkind = stkind, r.bcst = bcst, r.undet = undet, r.nib = nib, r.akind.bits = akind, r.track.bits = track
  revert stkind bcst undet nib akind track
  decide

theorem TxState.flag_eq_true {t : TxState} : t.flag = true ↔ t = .build := by
  cases t <;> decide

/-- Settles O45: the two bytes bit by bit, and each coding by its table. -/
theorem statusAndFlagsBits : Obligations.StatusAndFlagsBits := by
  intro s
  have hstatus : regRead s 0x00 = statusByte s := rfl
  have hflags : regRead s 0x12 = resFlags s.res := rfl
  rw [hstatus, hflags]
  obtain ⟨hstate, hkind, htx, heq, hzero⟩ := statusByte_bits s
  obtain ⟨hstkind, hbcst, hundet, hnib, hakind, htrack⟩ := resFlags_bits s.res
  rw [hstate, hkind, htx, hakind, htrack, rxKindFlag_eq_true, TxState.flag_eq_true]
  exact ⟨rfl, eq_iff_code RxState.bits_injective (by decide) _, .rfl, .rfl, heq, hzero, hstkind, hbcst, hundet, hnib,
    rfl, eq_iff_code AccKind.bits_injective (by decide) _, rfl, eq_iff_code TrackState.bits_injective (by decide) _⟩

theorem lookup_bufferRows_outside {base : Nat} (hb : base ≤ 241) {a : Byte}
    (ha : a.toNat < base ∨ base + 15 ≤ a.toNat) (buf : Buffer) : (bufferRows base buf).lookup a = none := by
  rw [lookup_bufferRows base hb, dif_neg (by omega)]

/-- R56: the addresses that no row lists. -/
theorem regRead_unmapped (s : State) {a : Byte}
    (h : a.toNat = 0x0E ∨ a.toNat = 0x0F ∨ (0x1A ≤ a.toNat ∧ a.toNat ≤ 0x1F) ∨ a.toNat = 0x2F ∨ a.toNat = 0x3F ∨
      0x4F ≤ a.toNat) : regRead s a = 0x00 := by
  rw [regRead_eq, lookup_controlRows_none s (by omega), lookup_resultRows_none s.res (by omega),
    lookup_bufferRows_outside (by decide) (by omega), lookup_bufferRows_outside (by decide) (by omega),
    lookup_bufferRows_outside (by decide) (by omega)]
  rfl

/-- What address 0x10 shows tells the kinds apart. -/
theorem readKind_injective : Function.Injective fun kind : ResKind => kind.bits.setWidth 8 :=
  (setWidth_injective (by decide)).comp ResKind.bits_injective

theorem joinNibbles_toNat (h l : Nibble) : (joinNibbles h l).toNat = 16 * h.toNat + l.toNat := by
  revert h l; decide

/-- R43, R56: RES_CV is shown as its upper three bits and its lower eight. -/
theorem cv_toNat_of_parts (v : BitVec 11) :
    256 * (BitVec.setWidth 8 (v.extractLsb' 8 3)).toNat + (v.extractLsb' 0 8).toNat = v.toNat := by
  simp [Nat.shiftRight_eq_div_pow]
  omega

/-- Settles O46: the read's meaning appends to the model's own list, and to nothing else. -/
theorem regReadHasNoSideEffect : Obligations.RegReadHasNoSideEffect := fun _ _ => rfl

/-- Settles O44: a row of the map shows its register, widened, split in two bytes, or entry by entry. -/
theorem readMapShowsTheRegisters : Obligations.ReadMapShowsTheRegisters := by
  intro s
  have hnibble (v : BitVec 4) : (v.setWidth 8).toNat = v.toNat := BitVec.toNat_setWidth_of_le (by decide)
  have hpre : joinBytes (hiByte s.rx.pre) (loByte s.rx.pre) = s.rx.pre := joinBytes_hi_lo _
  have hcode : (joinNibbles s.tx.code 0x0).toNat = 16 * s.tx.code.toNat := joinNibbles_toNat _ 0x0
  have hkind : (s.res.kind.bits.setWidth 8).toNat = s.res.kind.bits.toNat := BitVec.toNat_setWidth_of_le (by decide)
  have hkinds := eq_iff_code readKind_injective (table := [(ResKind.none, 0x00#8), (.cmdResult, 0x01#8),
    (.progResult, 0x02#8), (.accState, 0x03#8), (.trackStatus, 0x04#8)]) (by decide) s.res.kind
  exact ⟨rfl, rfl, rfl, eq_iff_code OpStatus.code_injective (by decide) _, hpre, rfl, hnibble _, rfl, rfl, hcode,
    hnibble _, rfl, rfl, hnibble _, hnibble _, hkind, hkinds, rfl, rfl, cv_toNat_of_parts _, rfl, rfl, hnibble _,
    hnibble _, fun i => regRead_rxBuf s i.isLt, fun i => regRead_txBuf s i.isLt, fun i => regRead_resPay s i.isLt,
    fun _ => regRead_unmapped s⟩

end Sys2Proof.Machine

/-! ## The statements of 30_encoding.md: the decoders and the encoder, and the meanings of whole frames and held shapes -/

namespace Sys2Proof.Machine

/-! ### Payload shapes (R76) -/

/-- The rows of R76: a payload that a held frame of a family has, by UNPACK's context and the frame's preamble, and the
instruction the frame stands for. -/
inductive HeldShape : Bool → FrameKind → CodeFamily → List Byte → Instr → Prop
  | ifstatusReply (kind : FrameKind) (payload : List Byte) :
    HeldShape true kind .interfaceStatus payload (.ifstatusReply payload)
  | ifstatusStatus (kind : FrameKind) (status : Byte) :
    HeldShape false kind .interfaceStatus [status] (.ifstatusStatus status)
  | progResult10 (ctx : Bool) (cvb value : Byte) :
    HeldShape ctx .direct .status [0x10, cvb, value] (.progResult10 cvb value)
  | progResult14 (ctx : Bool) (cvb value : Byte) :
    HeldShape ctx .direct .status [0x14, cvb, value] (.progResult14 cvb value)
  | progResult15 (ctx : Bool) (cvb value : Byte) :
    HeldShape ctx .direct .status [0x15, cvb, value] (.progResult15 cvb value)
  | progResult16 (ctx : Bool) (cvb value : Byte) :
    HeldShape ctx .direct .status [0x16, cvb, value] (.progResult16 cvb value)
  | progResult17 (ctx : Bool) (cvb value : Byte) :
    HeldShape ctx .direct .status [0x17, cvb, value] (.progResult17 cvb value)
  | trackStatus (ctx : Bool) (state : Byte) : HeldShape ctx .broadcast .status [state] (.trackStatus state)
  | ifaceReply01 (ctx : Bool) (kind : FrameKind) (data : List Byte) :
    HeldShape ctx kind .interface (0x01 :: data) (.ifaceReply01 data)
  | ifaceReply02 (ctx : Bool) (kind : FrameKind) (data : List Byte) :
    HeldShape ctx kind .interface (0x02 :: data) (.ifaceReply02 data)
  | ifaceReply03 (ctx : Bool) (kind : FrameKind) (data : List Byte) :
    HeldShape ctx kind .interface (0x03 :: data) (.ifaceReply03 data)
  | accReport (ctx : Bool) (kind : FrameKind) (address flags : Byte) :
    HeldShape ctx kind .accessoryReport [address, flags] (.accReport address flags)

section
variable {ctx : Bool} {kind : FrameKind} {payload : List Byte} {i : Instr}

theorem HeldShape.of_decodeIfstatus (h : decodeIfstatus ctx payload = .ok i) :
    HeldShape ctx kind .interfaceStatus payload i := by
  unfold decodeIfstatus at h
  split at h
  · next hctx => cases h; rw [hctx]; exact .ifstatusReply kind payload
  · next hctx =>
    rw [Bool.not_eq_true] at hctx
    split at h <;> cases h
    rw [hctx]
    exact .ifstatusStatus kind _

theorem HeldShape.of_decodeProgResult {sub cvb value : Byte} (h : decodeProgResult sub cvb value = .ok i) :
    HeldShape ctx .direct .status [sub, cvb, value] i := by
  unfold decodeProgResult at h
  split_ifs at h with hsub hsub hsub hsub hsub <;> cases h <;> rw [hsub] <;> constructor

theorem HeldShape.of_decodeStatus (h : decodeStatus kind payload = .ok i) : HeldShape ctx kind .status payload i := by
  unfold decodeStatus at h
  split at h
  · exact .of_decodeProgResult h
  · cases h; constructor
  · cases h

theorem HeldShape.of_decodeInterface (h : decodeInterface payload = .ok i) :
    HeldShape ctx kind .interface payload i := by
  cases payload with
  | nil => cases h
  | cons sub data =>
    rw [decodeInterface, decodeIface] at h
    split_ifs at h with hsub hsub hsub <;> cases h <;> rw [hsub] <;> constructor

theorem HeldShape.of_decodeAccessory (h : decodeAccessory payload = .ok i) :
    HeldShape ctx kind .accessoryReport payload i := by
  unfold decodeAccessory at h
  split at h <;> cases h
  constructor

/-- The decoder of held frames is the table of shapes, for a payload as long as the header says. -/
theorem decodeHeld_eq_ok {hdr : Byte} :
    decodeHeld ctx kind hdr payload = .ok i ↔
      payload.length = headerLength hdr ∧ ∃ c, hiNibble hdr = c.nibble ∧ HeldShape ctx kind c payload i := by
  constructor
  · intro h
    unfold decodeHeld at h
    split at h
    case isFalse => cases h
    case isTrue hlength =>
      refine ⟨hlength, ?_⟩
      split at h
      case h_1 hc => exact ⟨_, ofNibble_eq_some.1 hc, .of_decodeIfstatus h⟩
      case h_2 hc => exact ⟨_, ofNibble_eq_some.1 hc, .of_decodeStatus h⟩
      case h_3 hc => exact ⟨_, ofNibble_eq_some.1 hc, .of_decodeInterface h⟩
      case h_4 hc => exact ⟨_, ofNibble_eq_some.1 hc, .of_decodeAccessory h⟩
      all_goals cases h
  · rintro ⟨hlength, c, hc, hshape⟩
    rw [decodeHeld, if_pos hlength, hc, ofNibble_nibble]
    cases hshape <;> rfl

end

/-! ### Decoding what the encoder wrote (R70, R71, R75, R78) -/

theorem IsCommand.decode_encode {i : Instr} (hi : IsCommand i) : decode (encode i) = .ok i := by
  cases hi with
  | cksClr => exact decodeCommand_cksClr
  | cksAdd b => exact decodeCommand_cksAdd b
  | cksVerify e => exact decodeCommand_cksVerify e
  | txStart c => exact decodeCommand_txStart c
  | txParam b => exact decodeCommand_txParam b
  | txSend => exact decodeCommand_txSend
  | rxRelease => exact decodeCommand_rxRelease
  | unpack ctx => exact decodeCommand_unpack ctx
  | bcd b => exact decodeCommand_bcd b
  | rst => exact decodeCommand_rst

/-- The legal command words are those the encoder writes for the commands. -/
theorem decodeCommand_eq_ok {w : CommandWord} {i : Instr} :
    decodeCommand w = .ok i ↔ IsCommand i ∧ encode i = .command w := by
  constructor
  · intro h
    refine ⟨isCommand_of_decodeCommand h, ?_⟩
    obtain ⟨rfl, rfl⟩ | ⟨b, rfl, rfl⟩ | ⟨e, rfl, rfl⟩ | ⟨c, rfl, rfl⟩ | ⟨b, rfl, rfl⟩ | ⟨rfl, rfl⟩ | ⟨rfl, rfl⟩ |
      ⟨ctx, rfl, rfl⟩ | ⟨b, rfl, rfl⟩ | ⟨rfl, rfl⟩ := decodeCommand_cases h <;> rfl
  · rintro ⟨hi, hw⟩
    have h := hi.decode_encode
    rwa [hw] at h

theorem decode_heldFrame {ctx : Bool} {kind : FrameKind} {c : CodeFamily} {payload : List Byte} {i : Instr}
    (h : HeldShape ctx kind c payload i) (hlength : payload.length ≤ 15) :
    decode (heldFrame ctx kind c payload) = .ok i :=
  decodeHeld_eq_ok.2 ⟨(headerLength_headerByte _ hlength).symm, c, hiNibble_headerByte _ _, h⟩

theorem decode_outboundBytes (c : CodeFamily) {params : List Byte} (hlength : params.length ≤ 15) :
    decode (.outbound (outboundBytes c.nibble params)) = .ok (.frameOut c params) := by
  have h := decodeOutbound_frame c hlength []
  rw [List.append_nil] at h
  rw [decode, h, wholeFrame]

theorem decode_inboundBytes (kind : FrameKind) (code : Nibble) {payload : List Byte} (hlength : payload.length ≤ 15) :
    decode (.inbound (inboundBytes kind (headerByte code payload) payload)) = .ok (.frameIn kind code payload) := by
  have h := decodeInbound_frame kind (headerLength_headerByte code hlength).symm []
  rw [List.append_nil, hiNibble_headerByte] at h
  rw [decode, h, wholeFrame]

/-- Settles O1, by the interface the instruction stands on: a command word, a port's byte, a held shape, a whole frame. -/
theorem decodeAfterEncodeGivesTheInstruction : Obligations.DecodeAfterEncodeGivesTheInstruction := by
  intro i hi
  cases i with
  | cksClr | cksAdd | cksVerify | txStart | txParam | txSend | rxRelease | unpack | bcd | rst =>
    exact IsCommand.decode_encode (by constructor)
  | rxByte b | regRead a => rfl
  | ifstatusReply payload => exact decode_heldFrame (.ifstatusReply _ payload) hi
  | ifstatusStatus | progResult10 | progResult14 | progResult15 | progResult16 | progResult17 | trackStatus
    | accReport => exact decode_heldFrame (by constructor) (by simp)
  | ifaceReply01 | ifaceReply02 | ifaceReply03 => exact decode_heldFrame (by constructor) (Nat.succ_le_succ hi)
  | frameOut c params => exact decode_outboundBytes c hi
  | frameIn kind code payload => exact decode_inboundBytes kind code hi

/-! ### What the decoders accept (R71, R76, R79) -/

/-- Settles O2, by the commands: the map lists the word that each of them encodes to. -/
theorem commandDecoderIsTheOpcodeMap : Obligations.CommandDecoderIsTheOpcodeMap := by
  intro w i
  rw [decodeCommand_eq_ok]
  constructor
  · rintro ⟨hi, hw⟩
    cases hi with
    | txStart c =>
      cases hw
      cases c <;> simp [commandWord, joinBytes, CodeFamily.wholeByte, joinNibbles, CodeFamily.nibble]
    | unpack ctx => cases hw; cases ctx <;> simp [commandWord, joinBytes]
    | cksClr | cksAdd | cksVerify | txParam | txSend | rxRelease | bcd | rst =>
      cases hw
      simp [commandWord, joinBytes]
  · rintro (⟨rfl, rfl⟩ | ⟨b, rfl, rfl⟩ | ⟨e, rfl, rfl⟩ | ⟨rfl, rfl⟩ | ⟨rfl, rfl⟩ | ⟨rfl, rfl⟩ | ⟨rfl, rfl⟩ | ⟨rfl, rfl⟩ |
      ⟨rfl, rfl⟩ | ⟨rfl, rfl⟩ | ⟨rfl, rfl⟩ | ⟨b, rfl, rfl⟩ | ⟨rfl, rfl⟩ | ⟨rfl, rfl⟩ | ⟨rfl, rfl⟩ | ⟨rfl, rfl⟩ |
      ⟨b, rfl, rfl⟩ | ⟨rfl, rfl⟩) <;> exact ⟨by constructor, rfl⟩

theorem IsCommand.wellFormed {i : Instr} (h : IsCommand i) : i.WellFormed := by
  cases h <;> trivial

theorem HeldShape.wellFormed {ctx : Bool} {kind : FrameKind} {c : CodeFamily} {payload : List Byte} {i : Instr}
    (h : HeldShape ctx kind c payload i) (hlength : payload.length ≤ 15) : i.WellFormed := by
  cases h with
  | ifstatusReply => exact hlength
  | ifaceReply01 | ifaceReply02 | ifaceReply03 => exact Nat.le_of_succ_le_succ hlength
  | ifstatusStatus | progResult10 | progResult14 | progResult15 | progResult16 | progResult17 | trackStatus
    | accReport => trivial

/-- The encoder writes a shape's whole payload, under the family's code and the payload's length. -/
theorem HeldShape.encode_eq {ctx : Bool} {kind : FrameKind} {c : CodeFamily} {payload : List Byte} {i : Instr}
    (h : HeldShape ctx kind c payload i) : ∃ ctx' kind', encode i = heldFrame ctx' kind' c payload := by
  cases h <;> exact ⟨_, _, rfl⟩

theorem length_take_headerLength_le (h : Byte) (bytes : List Byte) : (bytes.take (headerLength h)).length ≤ 15 :=
  (List.length_take_le ..).trans (headerLength_le h)

theorem decodeInbound_wellFormed {bytes after : List Byte} {i : Instr} (h : decodeInbound bytes = .ok (i, after)) :
    i.WellFormed := by
  unfold decodeInbound at h
  split at h
  · split at h
    · cases h
    · dsimp only at h
      split at h
      · cases h
      · split at h <;> cases h
        exact length_take_headerLength_le _ _
  · cases h

theorem decodeOutbound_wellFormed {bytes after : List Byte} {i : Instr} (h : decodeOutbound bytes = .ok (i, after)) :
    i.WellFormed := by
  unfold decodeOutbound at h
  split at h
  · split at h
    · split at h
      · cases h
      · dsimp only at h
        split at h
        · cases h
        · split at h <;> cases h
          exact length_take_headerLength_le _ _
    · cases h
  · cases h

theorem wholeFrame_eq_ok {r : Except Reject (Instr × List Byte)} {i : Instr} (h : wholeFrame r = .ok i) :
    r = .ok (i, []) := by
  unfold wholeFrame at h
  split at h <;> cases h
  rfl

/-- Settles O3, interface by interface; a held frame's header is its code and its payload's length. -/
theorem decodingIsWellFormedAndDropsNoByte : Obligations.DecodingIsWellFormedAndDropsNoByte := by
  constructor
  · intro e i h
    cases e with
    | command w => exact (isCommand_of_decodeCommand h).wellFormed
    | receive b | read a => cases h; trivial
    | held ctx kind hdr payload =>
      obtain ⟨hlength, c, -, hshape⟩ := decodeHeld_eq_ok.1 h
      exact hshape.wellFormed (hlength ▸ headerLength_le hdr)
    | inbound bytes => exact decodeInbound_wellFormed (wholeFrame_eq_ok h)
    | outbound bytes => exact decodeOutbound_wellFormed (wholeFrame_eq_ok h)
  · intro ctx kind hdr payload i h
    obtain ⟨hlength, c, hc, hshape⟩ := decodeHeld_eq_ok.1 h
    obtain ⟨ctx', kind', hencode⟩ := hshape.encode_eq
    exact ⟨ctx', kind', by rw [hencode, heldFrame, ← hc, headerByte_hiNibble hlength]⟩

/-- Settles O4: closed words, which the decoder evaluates. -/
theorem exampleWordsDecode : Obligations.ExampleWordsDecode := by
  unfold Obligations.ExampleWordsDecode
  decide

/-! ### UNPACK and the held shapes (R170, R172) -/

/-- The meaning of a shape is UNPACK's shared part with the message that `dispatch` gives for it. -/
theorem HeldShape.exec_eq {ctx : Bool} {kind : FrameKind} {c : CodeFamily} {payload : List Byte} {i : Instr}
    (h : HeldShape ctx kind c payload i) {s : State} (hkind : s.rx.kind = kind) :
    exec i s = .next (unpackHeld (dispatch s.cfg c.nibble payload kind ctx) s) := by
  cases h with
  | ifstatusReply | ifstatusStatus | ifaceReply01 | ifaceReply02 | ifaceReply03 | accReport => rfl
  | progResult10 | progResult14 | progResult15 | progResult16 | progResult17 | trackStatus =>
    exact congrArg (fun m => Host.Outcome.next (unpackHeld m s)) (if_pos hkind)

theorem trackStatusCase_isSome {cfg : Config} {state : Byte}
    (h : state ∈ [cfg.trackStateOff, 0x01#8, cfg.trackStateProg]) : ∃ m, trackStatusCase cfg state = some m := by
  unfold trackStatusCase
  split_ifs with hoff hon hprog
  case neg =>
    replace hon : ¬state = 0x01#8 := hon
    simp [hoff, hon, hprog] at h
  all_goals exact ⟨_, rfl⟩

/-- Every shape has a message, unless its track byte names no state. -/
theorem HeldShape.dispatch_isSome {ctx : Bool} {kind : FrameKind} {c : CodeFamily} {payload : List Byte} {i : Instr}
    (h : HeldShape ctx kind c payload i) (cfg : Config)
    (htrack : ∀ b, i = .trackStatus b → b ∈ [cfg.trackStateOff, 0x01#8, cfg.trackStateProg]) :
    ∃ m, dispatch cfg c.nibble payload kind ctx = some m := by
  cases h with
  | trackStatus ctx state => exact trackStatusCase_isSome (htrack state rfl)
  | ifstatusReply | ifstatusStatus | progResult10 | progResult14 | progResult15 | progResult16 | progResult17
    | ifaceReply01 | ifaceReply02 | ifaceReply03 | accReport => exact ⟨_, rfl⟩

theorem messageFields_kind_ne_none (m : Message) : (messageFields m).kind ≠ .none := by
  rcases m with ⟨_ | _, _⟩ | _ | _ | _ <;> exact nofun

/-- Settles O32: UNPACK and the shape's meaning are both the shared part with the shape's message. -/
theorem unpackRunsTheHeldShape : Obligations.UnpackRunsTheHeldShape := by
  intro ctx s i hready hdecode
  obtain ⟨-, c, hc, hshape⟩ := decodeHeld_eq_ok.1 hdecode
  have hunpack : exec (.unpack ctx) s =
      .next (unpackHeld (dispatch s.cfg c.nibble s.rx.payload s.rx.kind ctx) s) := hc ▸ rfl
  refine ⟨_, hunpack, hshape.exec_eq rfl, unpackHeld_rx _ s, fun htrack => ?_⟩
  obtain ⟨m, hm⟩ := hshape.dispatch_isSome s.cfg htrack
  rw [hm, unpackHeld_message m hready]
  exact ⟨rfl, messageFields_kind_ne_none m, rfl⟩

/-! ### FRAME_OUT (R75, R120, R123) -/

/-- The family whose frame TX_SEND emits is the one TX_CODE names. -/
theorem nibble_eq_code {r : EncoderRegs} {c : CodeFamily}
    (h : [0xFF, 0xFE, joinNibbles r.code r.cnt] ++ r.params ++ [r.xor] = outboundBytes c.nibble r.params) :
    c.nibble = r.code := by
  simp only [outboundBytes, List.cons_append, List.cons.injEq] at h
  obtain ⟨-, -, hheader, -⟩ := h
  simpa using (congrArg hiNibble hheader).symm

/-- Settles O13: both commands send a frame's bytes, and TX_SEND's are those of TX_CODE's family and the params. -/
theorem frameOutIsWhatTxSendEmits : Obligations.FrameOutIsWhatTxSendEmits := by
  constructor
  · intro c params s _
    have hexec : exec (.frameOut c params) s = .next (sendFrame (outboundBytes c.nibble params) s) := rfl
    rw [hexec]
    obtain ⟨hstate, e⟩ | ⟨hstate, e⟩ := sendFrame_cases (outboundBytes c.nibble params) s <;> rw [hstate, e]
    · exact ⟨nofun, fun _ => rfl⟩
    · refine ⟨fun _ => ?_, nofun⟩
      rw [outboundBytes, ← List.append_assoc, ← List.append_assoc]
      rfl
  · intro s hs
    obtain ⟨c, hc⟩ := sentBytes_eq_outboundBytes hs
    exact ⟨c, nibble_eq_code hc, congrArg (fun bytes => Host.Outcome.next (sendFrame bytes s)) hc⟩

/-! ### FRAME_IN and the receive steps (R142 to R148) -/

theorem receiveAll_append (bytes more : List Byte) (s : State) :
    receiveAll (bytes ++ more) s = andThen (receiveAll bytes s) (receiveAll more) := by
  induction bytes generalizing s with
  | nil => rfl
  | cons b bytes ih =>
    have ih : receiveAll (bytes ++ more) = fun s => andThen (receiveAll bytes s) (receiveAll more) := funext ih
    rw [List.cons_append, receiveAll, receiveAll, andThen_assoc, ih]

/-- A decoder that holds takes none of the bytes it is offered (R141). -/
theorem receiveAll_of_not_accepting (bytes : List Byte) {s : State} (h : s.rx.state.accepting = false) :
    receiveAll bytes s = .next s := by
  induction bytes with
  | nil => rfl
  | cons b bytes ih => rw [receiveAll, execRxByte_of_not_accepting b h, andThen_next, ih]

/-- Where a byte sequence is the transport's next and receiving it takes it all, as many receive offers do the same. -/
theorem performAll_receive_eq_receiveAll {bytes more : List Byte} {s t : State} (hpending : s.pending = bytes ++ more)
    (h : receiveAll bytes s = .next t) (ht : t.pending = more) :
    performAll (List.replicate bytes.length .receive) s = .next t := by
  induction bytes generalizing s with
  | nil => exact h
  | cons b bytes ih =>
    cases hacc : s.rx.state.accepting with
    | true =>
      obtain ⟨u, hu, hrest⟩ := andThen_eq_next.1 h
      have hupending : u.pending = bytes ++ more := by
        rw [execRxByte_pending hu, if_pos hacc, hpending]; rfl
      rw [List.length_cons, List.replicate_succ, performAll, perform_receive hpending, hu, andThen_next]
      exact ih hupending hrest
    | false =>
      cases (receiveAll_of_not_accepting (b :: bytes) hacc).symm.trans h
      have hlength := congrArg List.length (hpending.symm.trans ht)
      rw [List.length_append, List.length_cons] at hlength
      omega

/-- The decoder has received a frame's preamble, its header `h` and, of the payload, the bytes `got`. -/
structure Receiving (frameKind : FrameKind) (h : Byte) (got : List Byte) (r : DecoderRegs) : Prop where
  state : r.state = if got.length = headerLength h then .chk else .pay
  kind : r.kind = frameKind
  hdr : r.hdr = h
  idx : r.idx.toNat = got.length
  buf : r.buf.toList.take got.length = got
  xor : r.xor = xorSum (h :: got)

section
variable {kind : FrameKind} {h : Byte} {got : List Byte} {s : State}

/-- R142, R143: from PRE0 a recognized preamble leads to HDR. -/
theorem receiveAll_preamble (hpre0 : s.rx.state = .pre0) (kind : FrameKind) :
    ∃ t, receiveAll [hiByte kind.preamble, loByte kind.preamble] s = .next t ∧ t.rx.state = .hdr ∧ t.rx.kind = kind ∧
      t.pending = s.pending.drop 2 := by
  have hp : joinBytes (hiByte kind.preamble) (loByte kind.preamble) = kind.preamble := joinBytes_hi_lo _
  simp [receiveAll, execRxByte, receive, hpre0, RxState.accepting, rxPre0, rxPre1, hp, ← List.drop_one]

/-- R144: the header starts the payload, of which no byte has come. -/
theorem Receiving.of_header (hstate : s.rx.state = .hdr) (hkind : s.rx.kind = kind) (h : Byte) :
    ∃ t, execRxByte h s = .next t ∧ Receiving kind h [] t.rx ∧ t.pending = s.pending.tail := by
  refine ⟨rxHeader h (take s), by simp [execRxByte, receive, hstate, RxState.accepting], ?_, rfl⟩
  constructor
  case state => simp only [rxHeader, ← headerLength_eq_zero, List.length_nil, @eq_comm _ 0]
  case xor => simp [rxHeader]
  case kind => exact hkind
  all_goals rfl

/-- R145: a payload byte is one more received. -/
theorem Receiving.payload_byte (hgot : Receiving kind h got s.rx) (hlt : got.length < headerLength h) (b : Byte) :
    ∃ t, execRxByte b s = .next t ∧ Receiving kind h (got ++ [b]) t.rx ∧ t.pending = s.pending.tail := by
  obtain ⟨hstate, hkind, hhdr, hidx, hbuf, hxor⟩ := hgot
  rw [if_neg (by omega)] at hstate
  have hlt15 : got.length < 15 := hlt.trans_le (headerLength_le h)
  obtain ⟨hs, -⟩ | ⟨hs, -⟩ | ⟨hs, -⟩ | ⟨-, h15, -⟩ | ⟨-, -, e⟩ | ⟨hs, -⟩ | ⟨hs | hs | hs, -⟩ := execRxByte_cases b s
  case inr.inr.inr.inl => rw [h15] at hidx; exact absurd hidx (Nat.ne_of_gt hlt15)
  case inr.inr.inr.inr.inl =>
    have hsucc : (s.rx.idx + 1).toNat = (got ++ [b]).length := by
      rw [List.length_append, List.length_singleton]; bv_omega
    refine ⟨_, e, ⟨?_, hkind, hhdr, hsucc, ?_, ?_⟩, rfl⟩
    · simp only [hhdr, ← hsucc, headerLength, BitVec.toNat_inj]
    · simp only [List.length_append, List.length_singleton, hidx]
      rw [take_setIfInBounds _ hlt15, hbuf]
    · rw [← List.cons_append, xorSum_snoc, ← hxor]
  all_goals exact absurd (hstate.symm.trans hs) (by decide)

/-- R145: the rest of the payload leads to CHK. -/
theorem Receiving.receiveAll_payload (hgot : Receiving kind h got s.rx) {rest : List Byte}
    (hlength : got.length + rest.length = headerLength h) :
    ∃ t, receiveAll rest s = .next t ∧ Receiving kind h (got ++ rest) t.rx ∧ t.pending = s.pending.drop rest.length := by
  induction rest generalizing got s with
  | nil => exact ⟨s, rfl, by rwa [List.append_nil], rfl⟩
  | cons b rest ih =>
    rw [List.length_cons] at hlength
    obtain ⟨u, hu, hgotu, hupending⟩ := hgot.payload_byte (by omega) b
    obtain ⟨t, ht, hgott, htpending⟩ := ih hgotu (by rw [List.length_append, List.length_singleton]; omega)
    refine ⟨t, by rw [receiveAll, hu, andThen_next, ht], by rwa [List.append_cons], ?_⟩
    rw [htpending, hupending, List.length_cons, List.drop_tail]

/-- R146: after the whole payload the check byte decides between READY and CKERR. -/
theorem Receiving.check_byte (hgot : Receiving kind h got s.rx) (hlength : got.length = headerLength h) (k : Byte) :
    ∃ t, execRxByte k s = .next t ∧ t.rx.kind = kind ∧ t.rx.hdr = h ∧ t.rx.payload = got ∧
      t.rx.state = (if k = xorSum (h :: got) then .ready else .ckerr) ∧ t.pending = s.pending.tail := by
  obtain ⟨hstate, hkind, hhdr, -, hbuf, hxor⟩ := hgot
  rw [if_pos hlength] at hstate
  refine ⟨rxCheck k (take s), by simp [execRxByte, receive, hstate, RxState.accepting], hkind, hhdr, ?_, ?_, rfl⟩
  · rw [hlength, ← hhdr] at hbuf
    exact hbuf
  · rw [← hxor]; rfl

/-- R148: receiving, from PRE0, a whole frame with a recognized preamble and any check byte. -/
theorem receiveAll_wholeFrame (hpre0 : s.rx.state = .pre0) (kind : FrameKind) {h : Byte} {payload : List Byte}
    (hlength : payload.length = headerLength h) (k : Byte) :
    ∃ t, receiveAll ([hiByte kind.preamble, loByte kind.preamble, h] ++ payload ++ [k]) s = .next t ∧
      t.rx.kind = kind ∧ t.rx.hdr = h ∧ t.rx.payload = payload ∧
      t.rx.state = (if k = xorSum (h :: payload) then .ready else .ckerr) ∧
      t.pending = s.pending.drop (payload.length + 4) := by
  obtain ⟨s₁, h₁, hstate₁, hkind₁, hpending₁⟩ := receiveAll_preamble hpre0 kind
  obtain ⟨s₂, h₂, hgot₂, hpending₂⟩ := Receiving.of_header hstate₁ hkind₁ h
  obtain ⟨s₃, h₃, hgot₃, hpending₃⟩ := hgot₂.receiveAll_payload (rest := payload) (by simpa using hlength)
  obtain ⟨t, ht, hkind, hhdr, hpayload, hstate, hpending⟩ := hgot₃.check_byte hlength k
  refine ⟨t, ?_, hkind, hhdr, hpayload, hstate, ?_⟩
  · have hbytes : [hiByte kind.preamble, loByte kind.preamble, h] ++ payload ++ [k] =
        [hiByte kind.preamble, loByte kind.preamble] ++ h :: (payload ++ [k]) := by simp
    rw [hbytes, receiveAll_append, h₁, andThen_next, receiveAll, h₂, andThen_next, receiveAll_append, h₃, andThen_next,
      receiveAll, ht]
    rfl
  · simp only [hpending, hpending₃, hpending₂, hpending₁, ← List.drop_one, List.drop_drop]
    congr 1
    omega

end

theorem length_inboundBytes (kind : FrameKind) (h : Byte) (payload : List Byte) :
    (inboundBytes kind h payload).length = payload.length + 4 := by
  simp [inboundBytes]

/-- Settles O24: from PRE0 the frame's bytes are all taken, so its receive steps are what as many receive offers do. -/
theorem frameInIsReceivedByReceiveSteps : Obligations.FrameInIsReceivedByReceiveSteps := by
  intro s kind code payload more hlength hpre0 hpending
  obtain ⟨t, ht, hkind, hhdr, hpayload, hstate, htpending⟩ := receiveAll_wholeFrame hpre0 kind
    (headerLength_headerByte code hlength).symm (xorSum (headerByte code payload :: payload))
  rw [if_pos rfl] at hstate
  have hmore : t.pending = more := by
    rw [htpending, hpending, ← length_inboundBytes kind (headerByte code payload), List.drop_left]
  have hreceives : receives (payload.length + 4) s = .next t := by
    rw [receives_eq_performAll, ← length_inboundBytes kind (headerByte code payload)]
    exact performAll_receive_eq_receiveAll hpending ht hmore
  refine ⟨t, ht, hreceives, hstate, hkind, hhdr, hpayload, hmore, ?_⟩
  rw [receiveAll_frame ht]
  exact ⟨rfl, rfl, rfl, rfl, rfl⟩

end Sys2Proof.Machine

/-! ## The statements of 40_checksum.md: the checksum function, the unit's commands, and their frame -/

namespace Sys2Proof.Machine

/-! ### The checksum function (R100, R105) -/

theorem xorSum_append (s t : List Byte) : xorSum (s ++ t) = xorSum s ^^^ xorSum t := by
  induction s with
  | nil => simp
  | cons b s ih => rw [List.cons_append, xorSum_cons, xorSum_cons, ih, BitVec.xor_assoc]

theorem xorSum_eq_of_perm {s t : List Byte} (h : s.Perm t) : xorSum s = xorSum t :=
  h.foldl_eq' (fun a _ b _ acc => by rw [BitVec.xor_assoc, BitVec.xor_comm a b, ← BitVec.xor_assoc]) 0x00#8

/-- Bit j of a checksum is the parity of the bytes that have bit j set. -/
theorem getLsbD_xorSum (s : List Byte) (j : Nat) :
    (xorSum s).getLsbD j = decide ((s.countP fun b => b.getLsbD j) % 2 = 1) := by
  induction s with
  | nil => simp
  | cons b s ih =>
    rw [xorSum_cons, BitVec.getLsbD_xor, ih, List.countP_cons]
    cases b.getLsbD j
    · simp
    · rw [if_pos rfl, Bool.true_xor, ← decide_not]
      congr 1
      exact propext (by omega)

theorem xorSum_change_one (s t : List Byte) {b c : Byte} (h : b ≠ c) : xorSum (s ++ b :: t) ≠ xorSum (s ++ c :: t) := by
  simpa [xorSum_append] using h

/-- Two changes by the same mask: each adds the mask once, and it cancels. -/
theorem xorSum_change_two (s t u : List Byte) (b c m : Byte) :
    xorSum (s ++ (b ^^^ m) :: t ++ (c ^^^ m) :: u) = xorSum (s ++ b :: t ++ c :: u) := by
  have hcancel : xorSum (s ++ (b ^^^ m) :: t ++ (c ^^^ m) :: u) = xorSum (s ++ b :: t ++ c :: u) ^^^ (m ^^^ m) := by
    simp only [xorSum_append, xorSum_cons]
    ac_rfl
  rw [hcancel, BitVec.xor_self, BitVec.xor_zero]

/-- Settles O5: (a) and (d) by induction on the sequence, the others from them and from the group laws of XOR. -/
theorem checksumLaws : Obligations.ChecksumLaws :=
  ⟨xorSum_append, fun _ _ => xorSum_eq_of_perm, fun s => (xorSum_snoc s _).trans BitVec.xor_self, getLsbD_xorSum,
    fun s t _ _ => xorSum_change_one s t, xorSum_change_two⟩

/-! ### The commands (R101 to R103) -/

theorem decodeCommand_cksClr_imm (imm : Byte) : decodeCommand (commandWord 0x01 imm) = withoutOperand imm .cksClr := by
  simp [decodeCommand, commandWord]

/-- Settles O6: the IMM decides between the command and an illegal word. -/
theorem cksClrClearsTheAccumulator : Obligations.CksClrClearsTheAccumulator := by
  refine ⟨fun imm s => ?_, fun _ => rfl⟩
  have hw : decodeCommand (0x01#8 ++ imm) = withoutOperand imm .cksClr := decodeCommand_cksClr_imm imm
  by_cases himm : imm = 0x00
  · rw [if_pos himm, perform_legal (hw.trans (if_pos himm))]
  · rw [if_neg himm, perform_illegal (hw.trans (if_neg himm))]
    rfl

/-- Settles O7: the word's operand is the byte that is added. -/
theorem cksAddFoldsTheByteIn : Obligations.CksAddFoldsTheByteIn := fun b =>
  ⟨decodeCommand_cksAdd b, fun _ => rfl⟩

theorem checksumEqual_eq_true {acc e : Byte} : checksumEqual acc e = true ↔ acc = e := beq_iff_eq

/-- Settles O8: the comparison's outcome goes to CKS_EQ, and either way the command succeeds. -/
theorem cksVerifyComparesTheAccumulator : Obligations.CksVerifyComparesTheAccumulator := fun e =>
  ⟨decodeCommand_cksVerify e, fun _ => ⟨_, rfl, checksumEqual_eq_true, rfl⟩⟩

/-! ### The checksum unit along a run (R104) -/

namespace ChecksumRegs

/-- The checksum unit's registers after a command. -/
def after (r : ChecksumRegs) : Instr → ChecksumRegs
  | .cksClr => { r with acc := 0x00 }
  | .cksAdd b => { r with acc := r.acc ^^^ b }
  | .cksVerify e => { r with eq := checksumEqual r.acc e }
  | .rst => .reset
  | _ => r

/-- The same after an offer. -/
def afterOffer (r : ChecksumRegs) : Offer → ChecksumRegs
  | .command w =>
    match decodeCommand w with
    | .ok i => r.after i
    | .error _ => r
  | .resetInput => .reset
  | .receive | .read _ | .arrive _ => r

theorem afterOffer_command {w : CommandWord} {i : Instr} (hw : decodeCommand w = .ok i) (r : ChecksumRegs) :
    r.afterOffer (.command w) = r.after i := by
  simp only [afterOffer, hw]

theorem afterOffer_cksClr (r : ChecksumRegs) : r.afterOffer (.command 0x0100) = { r with acc := 0x00 } :=
  afterOffer_command decodeCommand_cksClr r

theorem afterOffer_cksAdd (r : ChecksumRegs) (b : Byte) :
    r.afterOffer (.command (0x02#8 ++ b)) = { r with acc := r.acc ^^^ b } :=
  afterOffer_command (decodeCommand_cksAdd b) r

theorem afterOffer_cksVerify (r : ChecksumRegs) (e : Byte) :
    r.afterOffer (.command (0x03#8 ++ e)) = { r with eq := checksumEqual r.acc e } :=
  afterOffer_command (decodeCommand_cksVerify e) r

theorem foldl_cksAdd (bytes : List Byte) (r : ChecksumRegs) :
    (bytes.map fun b => Offer.command (0x02#8 ++ b)).foldl afterOffer r = { r with acc := r.acc ^^^ xorSum bytes } := by
  induction bytes generalizing r with
  | nil => simp
  | cons b bytes ih =>
    rw [List.map_cons, List.foldl_cons, afterOffer_cksAdd, ih, xorSum_cons, ← BitVec.xor_assoc]

/-- CKS_CLR and the CKS_ADDs make CKS_ACC the checksum, whatever it was before. -/
theorem foldl_sequence (bytes : List Byte) (r : ChecksumRegs) :
    (Offer.command 0x0100 :: bytes.map fun b => .command (0x02#8 ++ b)).foldl afterOffer r =
      { r with acc := xorSum bytes } := by
  rw [List.foldl_cons, afterOffer_cksClr, foldl_cksAdd]
  simp

end ChecksumRegs

@[simp] theorem sendFrame_cks (bytes : List Byte) (s : State) : (sendFrame bytes s).cks = s.cks := by rw [sendFrame_frame]

theorem exec_command_cks {i : Instr} {s t : State} (hi : IsCommand i) (h : exec i s = .next t) :
    t.cks = s.cks.after i := by
  cases hi with
  | cksClr | cksAdd | cksVerify | txStart | bcd | rst => cases h; rfl
  | txParam b => rw [execTxParam_frame h]; rfl
  | txSend => cases h; exact sendFrame_cks _ s
  | rxRelease => obtain e | e := execRxRelease_cases s <;> cases e.symm.trans h <;> rfl
  | unpack ctx => cases h; exact unpackHeld_cks _ s

theorem perform_cks {o : Offer} {s t : State} (h : perform o s = .next t) : t.cks = s.cks.afterOffer o := by
  cases o with
  | command w =>
    cases hw : decodeCommand w with
    | ok i =>
      rw [perform_legal hw] at h
      rw [ChecksumRegs.afterOffer_command hw, exec_command_cks (isCommand_of_decodeCommand hw) h]
    | error e =>
      rw [perform_illegal hw] at h
      cases h
      simp [ChecksumRegs.afterOffer, hw, illegalWord]
  | receive =>
    cases hp : s.pending with
    | nil => cases (perform_receive_nil hp).symm.trans h; rfl
    | cons b more =>
      rw [perform_receive hp] at h
      rw [execRxByte_frame h]; rfl
  | read a | arrive b | resetInput => cases h; rfl

/-- Without a reset only the commands of a run count for the checksum unit. -/
theorem performAll_cks {os : List Offer} (hreset : Offer.resetInput ∉ os) {s t : State} (h : performAll os s = .next t) :
    t.cks = (os.filter Offer.isCommand).foldl ChecksumRegs.afterOffer s.cks := by
  induction os generalizing s with
  | nil => cases h; rfl
  | cons o os ih =>
    obtain ⟨ho, hos⟩ := not_or.1 (mt List.mem_cons.2 hreset)
    obtain ⟨u, hu, ht⟩ := andThen_eq_next.1 h
    rw [ih hos ht, perform_cks hu]
    cases o with
    | command | receive | read | arrive => rfl
    | resetInput => exact absurd rfl ho

/-- Settles O9: no step of the run stops, and its commands alone determine the checksum unit. -/
theorem checksumSequenceComputesTheChecksum : Obligations.ChecksumSequenceComputesTheChecksum := by
  intro s bytes os hs hreset
  obtain ⟨t, ht⟩ := performAll_total os hs
  have hcks := performAll_cks hreset ht
  rw [runs_eq_performAll, ht]
  constructor
  · intro hos
    rw [hos, ChecksumRegs.foldl_sequence] at hcks
    exact ⟨t, rfl, by rw [hcks]⟩
  · intro e hos
    rw [hos, List.foldl_append, ChecksumRegs.foldl_sequence, List.foldl_cons, List.foldl_nil,
      ChecksumRegs.afterOffer_cksVerify] at hcks
    exact ⟨t, rfl, by rw [hcks], by rw [hcks, checksumEqual_eq_true, eq_comm]⟩

/-! ### The frame of the checksum commands and BCD, through the read port -/

/-- A row counts in a look-up only at its own address. -/
theorem lookup_cons_congr {a k v w : Byte} {l m : List (Byte × Byte)} (hv : a = k → v = w)
    (hl : l.lookup a = m.lookup a) : ((k, v) :: l).lookup a = ((k, w) :: m).lookup a := by
  by_cases h : a = k
  · simp [h, hv h]
  · have hne : (a == k) = false := beq_false_of_ne h
    simp only [List.lookup_cons, hne, hl]

/-- `s` with the checksum unit, the BCD registers and OPST of `t`. -/
def State.withChecksumAndBcd (s t : State) : State := { s with cks := t.cks, bcd := t.bcd, opst := t.opst }

/-- Where the read port shows the difference: at OPST, CKS_ACC, BCD_HI and BCD_LO, and at STATUS if CKS_EQ differs. -/
theorem regRead_withChecksumAndBcd (s t : State) {a : Byte} (hopst : a ≠ 0x01)
    (heq : a = 0x00 → t.cks.eq = s.cks.eq) (hacc : a = 0x0B → t.cks.acc = s.cks.acc)
    (hbcd : a = 0x0C ∨ a = 0x0D → t.bcd = s.bcd) :
    regRead (s.withChecksumAndBcd t) a = regRead s a := by
  have hstatus (h : a = 0x00) : statusByte (s.withChecksumAndBcd t) = statusByte s :=
    statusByte_inj.2 ⟨heq h, rfl, rfl, rfl⟩
  have hhi (h : a = 0x0C) : t.bcd.hi.setWidth 8 = s.bcd.hi.setWidth 8 := by rw [hbcd (.inl h)]
  have hlo (h : a = 0x0D) : t.bcd.lo.setWidth 8 = s.bcd.lo.setWidth 8 := by rw [hbcd (.inr h)]
  have hcontrol : (controlRows (s.withChecksumAndBcd t)).lookup a = (controlRows s).lookup a := by
    refine lookup_cons_congr hstatus (lookup_cons_congr (fun h => absurd h hopst) ?_)
    -- The rows from RX_PRE to TX_XOR are those of `s`.
    iterate 9 refine lookup_cons_congr (fun _ => rfl) ?_
    exact lookup_cons_congr hacc (lookup_cons_congr hhi (lookup_cons_congr hlo rfl))
  rw [regRead_eq, regRead_eq, hcontrol]
  rfl

/-- R57: only bit 5 of STATUS shows anything of the checksum unit. -/
theorem status_withChecksumAndBcd (s t : State) :
    regRead (s.withChecksumAndBcd t) 0x00 &&& 0xDF#8 = regRead s 0x00 &&& 0xDF#8 := by
  show statusByte (s.withChecksumAndBcd t) &&& 0xDF#8 = statusByte s &&& 0xDF#8
  unfold statusByte State.withChecksumAndBcd
  generalize s.rx.state.bits = st, rxKindFlag s.rx.kind = kind, s.tx.state.flag = tx, s.cks.eq = eq, t.cks.eq = eq'
  revert st kind tx eq eq'
  decide

/-- A command that writes only those units reads as before outside `changed`, when the addresses that show what it wrote are
in `changed`. -/
theorem checksumAndBcd_frame {i : Instr} {s t : State} {changed : List Byte}
    (h : exec i s = .next (s.withChecksumAndBcd t)) (hopst : 0x01 ∈ changed)
    (heq : 0x00 ∈ changed ∨ t.cks.eq = s.cks.eq) (hacc : 0x0B ∈ changed ∨ t.cks.acc = s.cks.acc)
    (hbcd : (0x0C ∈ changed ∧ 0x0D ∈ changed) ∨ t.bcd = s.bcd) :
    ∃ t, exec i s = .next t ∧ (∀ a : Byte, a ∉ changed → regRead t a = regRead s a) ∧
      regRead t 0x00 &&& 0xDF#8 = regRead s 0x00 &&& 0xDF#8 ∧
      t.pending = s.pending ∧ t.sent = s.sent ∧ t.cfg = s.cfg ∧ t.readLog = s.readLog := by
  refine ⟨_, h, fun a ha => ?_, status_withChecksumAndBcd s t, rfl, rfl, rfl, rfl⟩
  apply regRead_withChecksumAndBcd
  · rintro rfl; exact ha hopst
  · rintro rfl; exact heq.resolve_left ha
  · rintro rfl; exact hacc.resolve_left ha
  · rintro (rfl | rfl)
    · exact hbcd.resolve_left fun ⟨hhi, _⟩ => ha hhi
    · exact hbcd.resolve_left fun ⟨_, hlo⟩ => ha hlo

/-- Settles O48: each command writes OPST and its own registers, whose addresses are the listed ones. -/
theorem checksumAndBcdFrame : Obligations.ChecksumAndBcdFrame := by
  intro s b p hp
  simp only [List.mem_cons, List.not_mem_nil, or_false] at hp
  obtain rfl | rfl | rfl | rfl := hp
  · exact checksumAndBcd_frame (t := complete { s with cks := s.cks.after .cksClr }) rfl (by simp) (.inr rfl)
      (.inl (by simp)) (.inr rfl)
  · exact checksumAndBcd_frame (t := complete { s with cks := s.cks.after (.cksAdd b) }) rfl (by simp) (.inr rfl)
      (.inl (by simp)) (.inr rfl)
  · exact checksumAndBcd_frame (t := complete { s with cks := s.cks.after (.cksVerify b) }) rfl (by simp)
      (.inl (by simp)) (.inr rfl) (.inr rfl)
  · exact checksumAndBcd_frame (t := complete { s with bcd := { hi := hiNibble b, lo := loNibble b } }) rfl (by simp)
      (.inr rfl) (.inr rfl) (.inl (by simp))

end Sys2Proof.Machine

/-! ## The statements of 41_encoder.md: the encoder's commands, a frame built among other steps, its loopback, and the frame of
the encoder -/

namespace Sys2Proof.Machine

/-! ### The words of the encoder's commands (R79, R121 to R123) -/

theorem isEncoderCommand_iff {o : Offer} : o.isEncoderCommand = true ↔
    ∃ w i, o = .command w ∧ decodeCommand w = .ok i ∧ IsEncoderCommand i := by
  constructor
  · intro h
    unfold Offer.isEncoderCommand at h
    split at h
    · split at h
      case h_1 hw => exact ⟨_, _, rfl, hw, .txStart _⟩
      case h_2 hw => exact ⟨_, _, rfl, hw, .txParam _⟩
      case h_3 hw => exact ⟨_, _, rfl, hw, .txSend⟩
      case h_4 => cases h
    · cases h
  · rintro ⟨w, i, rfl, hw, hi⟩
    cases hi <;> simp only [Offer.isEncoderCommand, hw]

/-- R79: RST has one word. -/
theorem decodeCommand_eq_rst {w : CommandWord} (h : decodeCommand w = .ok .rst) : w = 0xF000 := by
  obtain ⟨-, hw⟩ := decodeCommand_eq_ok.1 h
  cases hw
  rfl

/-- TX_START's word for a family, as an offer. -/
abbrev txStartOffer (c : CodeFamily) : Offer := .command (0x10#8 ++ (c.nibble ++ 0x0#4))

/-- TX_PARAM's word for a byte, as an offer. -/
abbrev txParamOffer (b : Byte) : Offer := .command (0x11#8 ++ b)

theorem perform_txStart (c : CodeFamily) (s : State) : perform (txStartOffer c) s = exec (.txStart c) s :=
  perform_legal (decodeCommand_txStart c) s

theorem perform_txParam (b : Byte) (s : State) : perform (txParamOffer b) s = exec (.txParam b) s :=
  perform_legal (decodeCommand_txParam b) s

theorem perform_txSend (s : State) : perform (.command 0x1200) s = exec .txSend s :=
  perform_legal decodeCommand_txSend s

/-! ### The commands themselves (R121 to R123) -/

theorem decodeCommand_txStart_imm (imm : Byte) : decodeCommand (commandWord 0x10 imm) = decodeTxStart imm := by
  simp [decodeCommand, commandWord]

theorem decodeCommand_txSend_imm (imm : Byte) : decodeCommand (commandWord 0x12 imm) = withoutOperand imm .txSend := by
  simp [decodeCommand, commandWord]

/-- R79: a command without an operand is illegal with a non-zero IMM (R80, R212). -/
theorem perform_withoutOperand {w : CommandWord} {imm : Byte} {i : Instr} (hw : decodeCommand w = withoutOperand imm i)
    (s : State) :
    perform (.command w) s = if imm = 0x00 then exec i s else .next { s with opst := .illegalCommand } := by
  by_cases himm : imm = 0x00
  · rw [if_pos himm, perform_legal (hw.trans (if_pos himm))]
  · rw [if_neg himm, perform_illegal (hw.trans (if_neg himm))]
    rfl

/-- R8: CODESET, nibble by nibble. -/
theorem ofNibble_eq_none {n : Nibble} :
    CodeFamily.ofNibble n = none ↔ n ∉ [0x0#4, 0x2, 0x4, 0x5, 0x6, 0x8, 0xE, 0xF] := by
  revert n; decide

theorem decodeTxStart_eq_ok {imm : Byte} {c : CodeFamily} :
    decodeTxStart imm = .ok (.txStart c) ↔ loNibble imm = 0 ∧ hiNibble imm = c.nibble := by
  unfold decodeTxStart
  rw [← ofNibble_eq_some]
  split
  case isTrue hlo => cases CodeFamily.ofNibble (hiNibble imm) <;> simp [hlo]
  case isFalse hlo => exact ⟨nofun, fun ⟨h, _⟩ => absurd h hlo⟩

theorem decodeTxStart_illegal {imm : Byte}
    (h : loNibble imm ≠ 0 ∨ hiNibble imm ∉ [0x0#4, 0x2, 0x4, 0x5, 0x6, 0x8, 0xE, 0xF]) :
    decodeTxStart imm = .error .codeNotInCodeset := by
  rw [← ofNibble_eq_none] at h
  unfold decodeTxStart
  split
  case isTrue hlo => rw [h.resolve_left (not_not_intro hlo)]
  case isFalse => rfl

/-- Settles O10: the operand is a family's nibble over a zero one, or the word is illegal. -/
theorem txStartBeginsAFrame : Obligations.TxStartBeginsAFrame := by
  have hw (imm : Byte) : decodeCommand (0x10#8 ++ imm) = decodeTxStart imm := decodeCommand_txStart_imm imm
  refine ⟨fun imm c => ?_, fun imm himm s => ?_, fun _ _ => rfl⟩
  · rw [hw, decodeTxStart_eq_ok]
  · rw [perform_illegal ((hw imm).trans (decodeTxStart_illegal himm))]
    rfl

/-- Settles O12: the IMM decides between the command and an illegal word, TX_STATE between the emission and the error. -/
theorem txSendEmitsTheBuiltFrame : Obligations.TxSendEmitsTheBuiltFrame := by
  constructor
  · exact fun imm => perform_withoutOperand (decodeCommand_txSend_imm imm)
  · intro s
    have hexec : exec .txSend s =
        .next (sendFrame ([0xFF, 0xFE, joinNibbles s.tx.code s.tx.cnt] ++ s.tx.params ++ [s.tx.xor]) s) := rfl
    rw [hexec]
    obtain ⟨hstate, e⟩ | ⟨hstate, e⟩ := sendFrame_cases _ s <;> rw [hstate, e]
    · exact ⟨fun _ => rfl, nofun⟩
    · exact ⟨nofun, fun _ => rfl⟩

theorem getElem_setIfInBounds (buf : Buffer) (n : Nat) (b : Byte) (i : Fin 15) :
    (buf.setIfInBounds n b)[i] = if i.val = n then b else buf[i] := by
  rw [Fin.getElem_fin, Vector.getElem_setIfInBounds]
  exact if_congr eq_comm rfl rfl

/-- Settles O11: the three cases of TX_PARAM exclude each other; the last writes the entry at TX_CNT. -/
theorem txParamAppendsOrRejects : Obligations.TxParamAppendsOrRejects := by
  intro b
  refine ⟨decodeCommand_txParam b, fun s => ?_⟩
  show (_ → execTxParam b s = _) ∧ (_ → _ → execTxParam b s = _) ∧ (_ → _ → ∃ t, execTxParam b s = _ ∧ _)
  obtain ⟨hstate, e⟩ | ⟨hstate, hcnt, e⟩ | ⟨hstate, hlt, e⟩ := execTxParam_cases b s <;> rw [hstate, e]
  · exact ⟨fun _ => rfl, nofun, nofun⟩
  · exact ⟨nofun, fun _ _ => rfl, fun _ hne => absurd hcnt hne⟩
  · have hsucc : (s.tx.cnt + 1).toNat = s.tx.cnt.toNat + 1 := by bv_omega
    refine ⟨nofun, fun _ hcnt => ?_, fun _ _ => ⟨_, rfl, rfl, hstate, rfl, hsucc, rfl, getElem_setIfInBounds _ _ b, rfl⟩⟩
    rw [hcnt] at hlt
    exact absurd hlt (by decide)

/-! ### The transmit path along a run (R63, R125) -/

/-- The encoder and the transmit stream are the same. -/
def SameTransmitter (s r : State) : Prop := s.tx = r.tx ∧ s.sent = r.sent

/-- The table of 10_state.md, "written by": only an encoder command or a reset touches the encoder and the transmit stream. -/
theorem perform_sameTransmitter {o : Offer} {s t : State} (h : perform o s = .next t) (hresets : o.resets = false)
    (hother : o.isEncoderCommand = false) : SameTransmitter t s := by
  obtain ⟨w, i, rfl, hw, hexec⟩ | ⟨b, -, hrx⟩ | ⟨rfl, -⟩ | ⟨-, htx, -, hsent⟩ := perform_cases h
  · have hencoder (hi : IsEncoderCommand i) : SameTransmitter t s :=
      absurd (isEncoderCommand_iff.2 ⟨w, i, rfl, hw, hi⟩) (Bool.eq_false_iff.1 hother)
    cases isCommand_of_decodeCommand hw with
    | txStart | txParam | txSend => exact hencoder (by constructor)
    | rst => rw [decodeCommand_eq_rst hw] at hresets; cases hresets
    | cksClr | cksAdd | cksVerify | bcd => cases hexec; exact ⟨rfl, rfl⟩
    | rxRelease => obtain e | e := execRxRelease_cases s <;> cases e.symm.trans hexec <;> exact ⟨rfl, rfl⟩
    | unpack ctx => cases hexec; exact ⟨unpackHeld_tx _ s, unpackHeld_sent _ s⟩
  · rw [execRxByte_frame hrx]; exact ⟨rfl, rfl⟩
  · cases hresets
  · exact ⟨htx, hsent⟩

/-- R63: what an encoder command does to the encoder, the transmit stream and OPST depends on the first two alone. -/
theorem perform_encoderCommand {o : Offer} (ho : o.isEncoderCommand = true) {s r : State} (hsr : SameTransmitter s r) :
    perform o s = andThen (perform o r) fun u => .next (s.withTransmitter u) := by
  obtain ⟨w, i, rfl, hw, hi⟩ := isEncoderCommand_iff.1 ho
  rw [perform_legal hw, perform_legal hw]
  exact exec_withTransmitter hi hsr.1 hsr.2

/-- Without a reset only the encoder's commands of a run count for the encoder and the transmit stream. -/
theorem performAll_sameTransmitter {os : List Offer} (hresets : ∀ o ∈ os, o.resets = false) {s r t : State}
    (hsr : SameTransmitter s r) (h : performAll os s = .next t) :
    ∃ u, performAll (os.filter Offer.isEncoderCommand) r = .next u ∧ SameTransmitter t u := by
  induction os generalizing s r with
  | nil => cases h; exact ⟨r, rfl, hsr⟩
  | cons o os ih =>
    obtain ⟨ho, hos⟩ := List.forall_mem_cons.1 hresets
    obtain ⟨s', hs', ht⟩ := andThen_eq_next.1 h
    cases henc : o.isEncoderCommand with
    | true =>
      rw [perform_encoderCommand henc hsr] at hs'
      obtain ⟨r', hr', e⟩ := andThen_eq_next.1 hs'
      cases e
      obtain ⟨u, hu, htu⟩ := ih hos (s := s.withTransmitter r') (r := r') ⟨rfl, rfl⟩ ht
      exact ⟨u, by rw [List.filter_cons_of_pos henc, performAll, hr', andThen_next, hu], htu⟩
    | false =>
      obtain ⟨htx, hsent⟩ := perform_sameTransmitter hs' ho henc
      rw [List.filter_cons_of_neg (Bool.not_eq_true _ ▸ henc)]
      exact ih hos ⟨htx.trans hsr.1, hsent.trans hsr.2⟩ ht

/-- So an encoder command in a run answers what it answers after the run's encoder commands alone. -/
theorem performAll_encoderCommand_opst {before : List Offer} {o : Offer} (hresets : ∀ o ∈ before, o.resets = false)
    (ho : o.isEncoderCommand = true) {s u v : State} (hs : s.rx.Inv)
    (hu : performAll (before.filter Offer.isEncoderCommand) s = .next u) (hv : perform o u = .next v) :
    ∃ t, performAll (before ++ [o]) s = .next t ∧ t.opst = v.opst := by
  obtain ⟨t, ht⟩ := performAll_total before hs
  obtain ⟨u', hu', htu⟩ := performAll_sameTransmitter hresets ⟨rfl, rfl⟩ ht
  cases hu.symm.trans hu'
  refine ⟨t.withTransmitter v, ?_, rfl⟩
  rw [performAll_append, ht, andThen_next, performAll, perform_encoderCommand ho htu, hv]
  rfl

/-! ### A frame's commands one after the other (R121 to R123, R125) -/

/-- The encoder after TX_START and a TX_PARAM for each of `params`: it is building their frame, or has dropped it when they are
more than a header can say. -/
structure Building (c : CodeFamily) (params : List Byte) (r : EncoderRegs) : Prop where
  state : r.state = if params.length ≤ 15 then .build else .idle
  frame : params.length ≤ 15 → r.code = c.nibble ∧ r.params = params ∧ r.xor = xorSum params

section
variable {c : CodeFamily} {params : List Byte} {s : State}

theorem Building.length_of_build {r : EncoderRegs} (h : Building c params r) (hbuild : r.state = .build) :
    params.length ≤ 15 ∧ params.length = r.cnt.toNat := by
  have hlength : params.length ≤ 15 := by
    by_contra hgt
    have hidle := h.state
    rw [if_neg hgt, hbuild] at hidle
    cases hidle
  obtain ⟨-, hparams, -⟩ := h.frame hlength
  exact ⟨hlength, by rw [← params_length, hparams]⟩

theorem Building.length_of_idle {r : EncoderRegs} (h : Building c params r) (hidle : r.state = .idle) :
    15 < params.length := by
  by_contra hle
  have hbuild := h.state
  rw [if_pos (Nat.le_of_not_lt hle), hidle] at hbuild
  cases hbuild

/-- R121: TX_START begins an empty frame. -/
theorem Building.of_txStart (c : CodeFamily) (s : State) :
    ∃ t, exec (.txStart c) s = .next t ∧ Building c [] t.tx ∧ t.sent = s.sent ∧ t.opst = .ok :=
  ⟨_, rfl, ⟨rfl, fun _ => ⟨rfl, rfl, rfl⟩⟩, rfl, rfl⟩

/-- R122: TX_PARAM appends, drops the frame at the 16th param, and is refused after that. -/
theorem Building.txParam (h : Building c params s.tx) (b : Byte) :
    ∃ t, exec (.txParam b) s = .next t ∧ Building c (params ++ [b]) t.tx ∧ t.sent = s.sent ∧
      t.opst = if params.length < 15 then .ok
        else if params.length = 15 then .encodingConstraintError else .txNotStarted := by
  have hsucc : (params ++ [b]).length = params.length + 1 := List.length_append
  obtain ⟨hidle, e⟩ | ⟨hbuild, h15, e⟩ | ⟨hbuild, hlt, e⟩ := execTxParam_cases b s
  · have hlength := h.length_of_idle hidle
    refine ⟨_, e, ⟨?_, fun hle => by omega⟩, rfl, ?_⟩
    · rw [if_neg (by omega)]; exact hidle
    · rw [if_neg (by omega), if_neg (by omega)]
  · obtain ⟨-, hlength⟩ := h.length_of_build hbuild
    have hcnt : s.tx.cnt.toNat = 15 := by rw [h15]; rfl
    refine ⟨_, e, ⟨?_, fun hle => by omega⟩, rfl, ?_⟩
    · rw [if_neg (by omega)]
    · rw [if_neg (by omega), if_pos (by omega)]
  · obtain ⟨hle, hlength⟩ := h.length_of_build hbuild
    obtain ⟨hcode, hparams, hxor⟩ := h.frame hle
    refine ⟨_, e, ⟨?_, fun _ => ⟨hcode, ?_, ?_⟩⟩, rfl, ?_⟩
    · rw [if_pos (by omega)]; exact hbuild
    · rw [params_append hlt, hparams]
    · rw [xorSum_snoc, ← hxor]
    · rw [if_pos (by omega)]

/-- What TX_SEND emits while the frame is under construction (R75, R120, R123). -/
theorem Building.sentBytes_eq {r : EncoderRegs} (h : Building c params r) (hle : params.length ≤ 15) :
    [0xFF, 0xFE, joinNibbles r.code r.cnt] ++ r.params ++ [r.xor] = outboundBytes c.nibble params := by
  obtain ⟨hcode, hparams, hxor⟩ := h.frame hle
  have hcnt : r.cnt = BitVec.ofNat 4 params.length := by
    rw [← hparams, params_length, BitVec.ofNat_toNat, BitVec.setWidth_eq]
  rw [outboundBytes, headerByte, hcode, hparams, hxor, hcnt]

/-- R123: TX_SEND emits the frame, or is refused when it has been dropped. -/
theorem Building.txSend (h : Building c params s.tx) :
    ∃ t, exec .txSend s = .next t ∧ t.tx.state = .idle ∧
      t.sent = s.sent ++ (if params.length ≤ 15 then outboundBytes c.nibble params else []) ∧
      t.opst = if params.length ≤ 15 then .ok else .txNotStarted := by
  refine ⟨_, rfl, ?_⟩
  obtain ⟨hidle, e⟩ | ⟨hbuild, e⟩ :=
    sendFrame_cases ([0xFF, 0xFE, joinNibbles s.tx.code s.tx.cnt] ++ s.tx.params ++ [s.tx.xor]) s <;> rw [e]
  · have hlength := h.length_of_idle hidle
    rw [if_neg (by omega), if_neg (by omega), List.append_nil]
    exact ⟨hidle, rfl, rfl⟩
  · obtain ⟨hle, -⟩ := h.length_of_build hbuild
    rw [if_pos hle, if_pos hle, h.sentBytes_eq hle]
    exact ⟨rfl, rfl, rfl⟩

theorem Building.performAll_txParams (h : Building c params s.tx) (more : List Byte) :
    ∃ t, performAll (more.map txParamOffer) s = .next t ∧ Building c (params ++ more) t.tx ∧ t.sent = s.sent := by
  induction more generalizing params s with
  | nil => exact ⟨s, rfl, by rwa [List.append_nil], rfl⟩
  | cons b more ih =>
    obtain ⟨u, hu, hbuilding, husent, -⟩ := h.txParam b
    obtain ⟨t, ht, htbuilding, htsent⟩ := ih hbuilding
    refine ⟨t, ?_, by rwa [List.append_cons], htsent.trans husent⟩
    rw [List.map_cons, performAll, perform_txParam, hu, andThen_next, ht]

end

theorem performAll_txStart_txParams (c : CodeFamily) (params : List Byte) (s : State) :
    ∃ t, performAll (txStartOffer c :: params.map txParamOffer) s = .next t ∧ Building c params t.tx ∧ t.sent = s.sent := by
  obtain ⟨u, hu, hbuilding, husent, -⟩ := Building.of_txStart c s
  obtain ⟨t, ht, htbuilding, htsent⟩ := hbuilding.performAll_txParams params
  exact ⟨t, by rw [performAll, perform_txStart, hu, andThen_next, ht], htbuilding, htsent.trans husent⟩

/-- Where an element of `first :: (l.map f ++ [last])` can stand: first, last, or as the image of one of `l`. -/
theorem split_cons_map_snoc {α β : Type} {f : α → β} {first last o : β} {l : List α} {before later : List β}
    (h : before ++ o :: later = first :: l.map f ++ [last]) :
    (before = [] ∧ o = first) ∨
    (∃ l₁ a l₂, l = l₁ ++ a :: l₂ ∧ before = first :: l₁.map f ∧ o = f a) ∨
    (before = first :: l.map f ∧ o = last) := by
  cases before with
  | nil =>
    rw [List.nil_append, List.cons_append, List.cons.injEq] at h
    exact .inl ⟨rfl, h.1⟩
  | cons x before =>
    rw [List.cons_append, List.cons_append, List.cons.injEq] at h
    obtain ⟨rfl, h⟩ := h
    refine .inr ?_
    obtain rfl | ⟨later, z, rfl⟩ := List.eq_nil_or_concat later
    · obtain ⟨rfl, hlast⟩ := List.append_inj' h rfl
      cases hlast
      exact .inr ⟨rfl, rfl⟩
    · rw [List.concat_eq_append, ← List.cons_append, ← List.append_assoc] at h
      obtain ⟨hmap, -⟩ := List.append_inj' h rfl
      obtain ⟨l₁, l', rfl, rfl, hl'⟩ := List.map_eq_append_iff.1 hmap.symm
      obtain ⟨a, l₂, rfl, rfl, -⟩ := List.map_eq_cons_iff.1 hl'
      exact .inl ⟨l₁, a, l₂, rfl, rfl, rfl⟩

/-- What the encoder command after the first `n` of a frame's commands answers (R125). -/
def frameStatus (count n : Nat) : OpStatus :=
  if count ≤ 15 ∨ n ≤ 15 then .ok else if n = 16 then .encodingConstraintError else .txNotStarted

/-- A TX_PARAM with `n` params before it. -/
theorem frameStatus_param {count n : Nat} (h : n < count) : frameStatus count (n + 1) =
    if n < 15 then .ok else if n = 15 then .encodingConstraintError else .txNotStarted := by
  have hok : (count ≤ 15 ∨ n + 1 ≤ 15) ↔ n < 15 := by omega
  have hfull : n + 1 = 16 ↔ n = 15 := by omega
  simp only [frameStatus, hok, hfull]

/-- The TX_SEND after all of them. -/
theorem frameStatus_send (count : Nat) : frameStatus count (count + 1) = if count ≤ 15 then .ok else .txNotStarted := by
  have hok : (count ≤ 15 ∨ count + 1 ≤ 15) ↔ count ≤ 15 := by omega
  simp only [frameStatus, hok]
  split
  · rfl
  · rw [if_neg (by omega)]

/-- R125: each of a frame's commands, after those before it. -/
theorem frame_command_status {c : CodeFamily} {params : List Byte} {before later : List Offer} {o : Offer}
    (h : before ++ o :: later = txStartOffer c :: params.map txParamOffer ++ [.command 0x1200]) (s : State) :
    ∃ u v, performAll before s = .next u ∧ perform o u = .next v ∧ v.opst = frameStatus params.length before.length := by
  obtain ⟨rfl, rfl⟩ | ⟨sofar, b, more, rfl, rfl, rfl⟩ | ⟨rfl, rfl⟩ := split_cons_map_snoc h
  · obtain ⟨v, hv, -, -, hopst⟩ := Building.of_txStart c s
    exact ⟨s, v, rfl, by rw [perform_txStart, hv], by rw [hopst, frameStatus, if_pos (.inr (Nat.zero_le _))]⟩
  · obtain ⟨u, hu, hbuilding, -⟩ := performAll_txStart_txParams c sofar s
    obtain ⟨v, hv, -, -, hopst⟩ := hbuilding.txParam b
    refine ⟨u, v, hu, by rw [perform_txParam, hv], ?_⟩
    have hlt : sofar.length < (sofar ++ b :: more).length := by simp
    rw [hopst, List.length_cons, List.length_map, frameStatus_param hlt]
  · obtain ⟨u, hu, hbuilding, -⟩ := performAll_txStart_txParams c params s
    obtain ⟨v, hv, -, -, hopst⟩ := hbuilding.txSend
    refine ⟨u, v, hu, by rw [perform_txSend, hv], ?_⟩
    rw [hopst, List.length_cons, List.length_map, frameStatus_send]

/-- Settles O14: only the encoder's commands of the run count for the transmit path, and one after the other they build the frame
and send it, or drop it at the 16th param. -/
theorem txFrameEmitsTheEncodedFrame : Obligations.TxFrameEmitsTheEncodedFrame := by
  intro s c params os hs hresets hos
  constructor
  · obtain ⟨t, ht⟩ := performAll_total os hs
    obtain ⟨v, hv, htx, hsent⟩ := performAll_sameTransmitter hresets ⟨rfl, rfl⟩ ht
    obtain ⟨u, hu, hbuilding, husent⟩ := performAll_txStart_txParams c params s
    obtain ⟨w, hw, hidle, hwsent, -⟩ := hbuilding.txSend
    have hrun : performAll (os.filter Offer.isEncoderCommand) s = .next w := by
      rw [hos, performAll_append, hu, andThen_next, performAll, perform_txSend, hw]
      rfl
    cases hrun.symm.trans hv
    refine ⟨t, by rw [runs_eq_performAll, ht], by rw [htx, hidle], ?_⟩
    rw [hsent, hwsent, husent]
    rfl
  · rintro before later o rfl ho
    rw [List.filter_append, List.filter_cons_of_pos ho] at hos
    obtain ⟨u, v, hu, hv, hopst⟩ := frame_command_status hos s
    obtain ⟨t, ht, htv⟩ := performAll_encoderCommand_opst
      (fun o ho => hresets o (List.mem_append_left _ ho)) ho hs hu hv
    exact ⟨t, by rw [runs_eq_performAll, ht], htv.trans hopst⟩

/-! ### The loopback (R126) -/

/-- As many receive offers as a pending whole frame has bytes, from PRE0, with any check byte. -/
theorem receives_wholeFrame {s : State} (hpre0 : s.rx.state = .pre0) (kind : FrameKind) {h : Byte}
    {payload more : List Byte} (hlength : payload.length = headerLength h) (k : Byte)
    (hpending : s.pending = [hiByte kind.preamble, loByte kind.preamble, h] ++ payload ++ [k] ++ more) :
    ∃ t, receives (payload.length + 4) s = .next t ∧ t.rx.kind = kind ∧ t.rx.hdr = h ∧ t.rx.payload = payload ∧
      t.rx.state = (if k = xorSum (h :: payload) then .ready else .ckerr) ∧ t.pending = more := by
  obtain ⟨t, ht, hkind, hhdr, hpayload, hstate, htpending⟩ := receiveAll_wholeFrame hpre0 kind hlength k
  have hcount : ([hiByte kind.preamble, loByte kind.preamble, h] ++ payload ++ [k]).length = payload.length + 4 := by
    simp
  have hmore : t.pending = more := by rw [htpending, hpending, ← hcount, List.drop_left]
  refine ⟨t, ?_, hkind, hhdr, hpayload, hstate, hmore⟩
  rw [receives_eq_performAll, ← hcount]
  exact performAll_receive_eq_receiveAll hpending ht hmore

/-- The header 0x00 is code 0x0 with no params. -/
theorem headerByte_eq_zero {c : CodeFamily} {params : List Byte} (hlength : params.length ≤ 15) :
    headerByte c.nibble params = 0x00 ↔ c = .interfaceStatus ∧ params = [] := by
  constructor
  · intro h
    have hcode : c.nibble = CodeFamily.interfaceStatus.nibble := by rw [← hiNibble_headerByte c.nibble params, h]; rfl
    have hcount : params.length = 0 := by rw [← headerLength_headerByte c.nibble hlength, h]; rfl
    exact ⟨nibble_injective hcode, List.length_eq_zero_iff.1 hcount⟩
  · rintro ⟨rfl, rfl⟩
    rfl

/-- R126: the outbound check byte is the inbound one exactly for a header of 0x00, which adds nothing to the checksum. -/
theorem xorSum_eq_xorSum_cons {h : Byte} {bytes : List Byte} : xorSum bytes = xorSum (h :: bytes) ↔ h = 0x00 := by
  have hcancel := BitVec.xor_left_inj (x := 0x00#8) (y := h) (xorSum bytes)
  rw [BitVec.zero_xor] at hcancel
  rw [xorSum_cons]
  exact hcancel.trans eq_comm

/-- Settles O17: either way the decoder takes the whole frame, and its check byte decides. -/
theorem loopbackFailsUnlessTheHeaderIsZero : Obligations.LoopbackFailsUnlessTheHeaderIsZero := by
  intro s c params more hlength hpre0
  have hheader : params.length = headerLength (headerByte c.nibble params) :=
    (headerLength_headerByte c.nibble hlength).symm
  constructor
  · intro hpending
    obtain ⟨t, ht, -, -, -, hstate, -⟩ := receives_wholeFrame hpre0 .direct hheader (xorSum params) hpending
    refine ⟨t, ht, ?_⟩
    simp only [hstate, xorSum_eq_xorSum_cons, headerByte_eq_zero hlength]
  · intro hpending
    rw [outboundBytes, List.dropLast_concat] at hpending
    obtain ⟨t, ht, -, hhdr, hpayload, hstate, hmore⟩ := receives_wholeFrame hpre0 .direct hheader _ hpending
    rw [if_pos rfl] at hstate
    exact ⟨t, ht, hstate, by rw [hhdr, hiNibble_headerByte], hpayload, hmore⟩

/-! ### The frame of the encoder, through the read port -/

/-- Where the read port shows the transmit path: at STATUS, OPST, TX_CODE, TX_CNT, TX_XOR and TX_BUF. -/
theorem regRead_withTransmitter (s t : State) {a : Byte} (ha : a ∉ [0x00#8, 0x01, 0x08, 0x09, 0x0A])
    (hbuf : ¬ (0x30 ≤ a.toNat ∧ a.toNat ≤ 0x3E)) : regRead (s.withTransmitter t) a = regRead s a := by
  simp only [List.mem_cons, List.not_mem_nil, or_false, not_or] at ha
  obtain ⟨hstatus, hopst, hcode, hcnt, hxor⟩ := ha
  have hcontrol : (controlRows (s.withTransmitter t)).lookup a = (controlRows s).lookup a := by
    refine lookup_cons_congr (fun h => absurd h hstatus) (lookup_cons_congr (fun h => absurd h hopst) ?_)
    -- The decoder's rows, from RX_PRE to RX_CHK, are those of `s`.
    iterate 6 refine lookup_cons_congr (fun _ => rfl) ?_
    exact lookup_cons_congr (fun h => absurd h hcode) (lookup_cons_congr (fun h => absurd h hcnt)
      (lookup_cons_congr (fun h => absurd h hxor) rfl))
  have htxBuf (buf : Buffer) : (bufferRows 0x30 buf).lookup a = none :=
    lookup_bufferRows_outside (by decide) (by omega) buf
  rw [regRead_eq, regRead_eq, hcontrol, htxBuf, htxBuf]
  rfl

/-- R57: only bit 4 of STATUS shows anything of the encoder. -/
theorem status_withTransmitter (s t : State) :
    regRead (s.withTransmitter t) 0x00 &&& 0xEF#8 = regRead s 0x00 &&& 0xEF#8 := by
  show statusByte (s.withTransmitter t) &&& 0xEF#8 = statusByte s &&& 0xEF#8
  unfold statusByte State.withTransmitter
  generalize s.rx.state.bits = st, rxKindFlag s.rx.kind = kind, s.tx.state.flag = tx, t.tx.state.flag = tx', s.cks.eq = eq
  revert st kind tx tx' eq
  decide

/-- TX_PARAM writes no entry of TX_BUF but the one at TX_CNT. -/
theorem execTxParam_buf {b : Byte} {s t : State} (h : execTxParam b s = .next t) {j : Fin 15}
    (hj : j.val ≠ s.tx.cnt.toNat) : t.tx.buf[j] = s.tx.buf[j] := by
  obtain ⟨-, e⟩ | ⟨-, -, e⟩ | ⟨-, -, e⟩ := execTxParam_cases b s <;> cases e.symm.trans h
  · rfl
  · rfl
  · rw [getElem_setIfInBounds, if_neg hj]

@[simp] theorem sendFrame_buf (bytes : List Byte) (s : State) : (sendFrame bytes s).tx.buf = s.tx.buf := by
  obtain ⟨-, e⟩ | ⟨-, e⟩ := sendFrame_cases bytes s <;> rw [e]

/-- FRAME_OUT writes what TX_SEND writes (log entry 7). -/
theorem sendFrame_eq_withTransmitter (bytes : List Byte) (s : State) :
    sendFrame bytes s = s.withTransmitter (sendFrame bytes s) := sendFrame_frame bytes s

/-- What the encoder's instructions write beside OPST, in TX_BUF and the transmit stream. -/
theorem exec_encoder_writes (s : State) (b : Byte) (c : CodeFamily) (params : List Byte) {i : Instr}
    (hi : i ∈ [Instr.txStart c, .txParam b, .txSend, .frameOut c params]) :
    ∃ t, exec i s = .next t ∧ t = s.withTransmitter t ∧
      (∀ j : Fin 15, i = .txParam b → j.val ≠ s.tx.cnt.toNat → t.tx.buf[j] = s.tx.buf[j]) ∧
      (i ≠ .txParam b → t.tx.buf = s.tx.buf) ∧ (i = .txStart c ∨ i = .txParam b → t.sent = s.sent) := by
  simp only [List.mem_cons, List.not_mem_nil, or_false] at hi
  obtain rfl | rfl | rfl | rfl := hi
  · exact ⟨_, rfl, rfl, nofun, fun _ => rfl, fun _ => rfl⟩
  · obtain ⟨t, ht⟩ := exec_command_total (.txParam b) s
    have hsent : t.sent = s.sent := by rw [execTxParam_frame ht]
    exact ⟨t, ht, exec_encoderCommand_frame (.txParam b) ht, fun _ _ => execTxParam_buf ht, fun h => absurd rfl h,
      fun _ => hsent⟩
  · exact ⟨_, rfl, sendFrame_eq_withTransmitter _ s, nofun, fun _ => sendFrame_buf _ s, nofun⟩
  · exact ⟨_, rfl, sendFrame_eq_withTransmitter _ s, nofun, fun _ => sendFrame_buf _ s, nofun⟩

/-- Settles O49: the four write the transmit path alone, and the read port shows it only at the listed addresses. -/
theorem encoderFrame : Obligations.EncoderFrame := by
  intro s b c params i hi
  obtain ⟨t, ht, hframe, hparam, hbuf, hsent⟩ := exec_encoder_writes s b c params hi
  refine ⟨t, ht, fun a ha haddr => ?_, ?_, hparam, hbuf, hsent, ?_, ?_, ?_⟩ <;> rw [hframe]
  · exact regRead_withTransmitter s t ha haddr
  · exact status_withTransmitter s t
  all_goals rfl

end Sys2Proof.Machine

/-! ## The statements of 42_decoder.md: the receive step state by state, RX_RELEASE, a whole frame and the next one, what holds the
decoder still, and the frame of the decoder -/

namespace Sys2Proof.Machine

/-! ### The receive step in each RX_STATE (R140 to R146) -/

theorem take_of_pending {s : State} {b : Byte} {more : List Byte} (hp : s.pending = b :: more) :
    take s = { s with pending := more } := by
  rw [take, hp, List.tail_cons]

section
variable {s : State} {b : Byte} {more : List Byte} (hp : s.pending = b :: more)
include hp

/-- R140: while the decoder accepts, a receive step takes the first pending byte and receives it. -/
theorem execRxByte_of_accepting (hacc : s.rx.state.accepting = true) :
    execRxByte b s = receive b { s with pending := more } := by
  rw [execRxByte, if_pos hacc, take_of_pending hp]

theorem execRxByte_of_pre0 (h : s.rx.state = .pre0) :
    execRxByte b s = .next (rxPre0 b { s with pending := more }) := by
  simp only [execRxByte_of_accepting hp (by rw [h]; rfl), receive, h]

theorem execRxByte_of_pre1 (h : s.rx.state = .pre1) :
    execRxByte b s = .next (rxPre1 b { s with pending := more }) := by
  simp only [execRxByte_of_accepting hp (by rw [h]; rfl), receive, h]

theorem execRxByte_of_hdr (h : s.rx.state = .hdr) :
    execRxByte b s = .next (rxHeader b { s with pending := more }) := by
  simp only [execRxByte_of_accepting hp (by rw [h]; rfl), receive, h]

theorem execRxByte_of_pay (h : s.rx.state = .pay) : execRxByte b s = rxPayload b { s with pending := more } := by
  simp only [execRxByte_of_accepting hp (by rw [h]; rfl), receive, h]

theorem execRxByte_of_chk (h : s.rx.state = .chk) :
    execRxByte b s = .next (rxCheck b { s with pending := more }) := by
  simp only [execRxByte_of_accepting hp (by rw [h]; rfl), receive, h]

end

section
variable {s : State} {b : Byte}

/-- R143: a marker is classified. -/
theorem rxPre1_of_marker {kind : FrameKind} (h : joinBytes (hiByte s.rx.pre) b = kind.preamble) :
    rxPre1 b s = { s with rx := { s.rx with pre := kind.preamble, kind := kind, state := .hdr } } := by
  simp only [rxPre1, h, ofPreamble_preamble]

/-- R143: any other preamble leaves RX_KIND alone. -/
theorem rxPre1_of_unrecognized (hdirect : joinBytes (hiByte s.rx.pre) b ≠ 0xFFFE)
    (hbcast : joinBytes (hiByte s.rx.pre) b ≠ 0xFFFD) :
    rxPre1 b s = { s with rx := { s.rx with pre := joinBytes (hiByte s.rx.pre) b, state := .desync } } := by
  simp only [rxPre1, ofPreamble_eq_none.2 ⟨hdirect, hbcast⟩]

end

/-- Settles O18: in PRE1 the joined preamble is one marker, the other, or neither. -/
theorem receivingThePreamble : Obligations.ReceivingThePreamble := by
  intro s b more hp
  refine ⟨execRxByte_of_pre0 hp, fun hstate => ?_⟩
  have hexec : exec (.rxByte b) s = .next (rxPre1 b { s with pending := more }) := execRxByte_of_pre1 hp hstate
  rw [hexec]
  exact ⟨fun hdirect => congrArg _ (rxPre1_of_marker (kind := .direct) hdirect),
    fun hbcast => congrArg _ (rxPre1_of_marker (kind := .broadcast) hbcast),
    fun hdirect hbcast => congrArg _ (rxPre1_of_unrecognized hdirect hbcast)⟩

theorem headerLength_eq_mod (h : Byte) : headerLength h = h.toNat % 16 := loNibble_toNat h

/-- Settles O19: the header's low nibble is 0 where its value is a multiple of 16. -/
theorem receivingTheHeaderAndTheCheckByte : Obligations.ReceivingTheHeaderAndTheCheckByte := by
  intro s b more hp
  refine ⟨fun hstate => (execRxByte_of_hdr hp hstate).trans ?_, execRxByte_of_chk hp⟩
  simp only [rxHeader, ← headerLength_eq_zero, headerLength_eq_mod]

/-- Settles O20: RX_IDX is below 15, so the byte has a register, and counting it does not wrap around. -/
theorem receivingAPayloadByte : Obligations.ReceivingAPayloadByte := by
  intro s b more hp hstate hlt
  have hidx : s.rx.idx ≠ 15 := by
    intro h15
    rw [h15] at hlt
    have hfull : (15 : BitVec 4).toNat = 15 := rfl
    omega
  have hsucc : (s.rx.idx + 1).toNat = s.rx.idx.toNat + 1 := by bv_omega
  refine ⟨_, (execRxByte_of_pay hp hstate).trans (if_neg hidx), getElem_setIfInBounds _ _ b, rfl, hsucc, ?_, rfl⟩
  simp only [hstate, ← hsucc, ← loNibble_toNat, BitVec.toNat_inj]

/-! ### When a step takes a byte, and when it stops (R141, R145) -/

/-- A receive step stops at no byte but a payload byte with RX_IDX = 15. -/
theorem execRxByte_completes {s : State} (h : s.rx.state = .pay → s.rx.idx ≠ 15) (b : Byte) :
    ∃ t, execRxByte b s = .next t := by
  obtain ⟨-, e⟩ | ⟨-, e⟩ | ⟨-, e⟩ | ⟨hpay, hidx, -⟩ | ⟨-, -, e⟩ | ⟨-, e⟩ | ⟨-, e⟩ := execRxByte_cases b s
  case inr.inr.inr.inl => exact absurd hidx (h hpay)
  all_goals exact ⟨_, e⟩

theorem mem_holding_iff {r : RxState} : r ∈ [.ready, .ckerr, .desync] ↔ r.accepting = false := by
  cases r <;> decide

theorem mem_accepting_iff {r : RxState} : r ∈ [.pre0, .pre1, .hdr, .pay, .chk] ↔ r.accepting = true := by
  cases r <;> decide

/-- Settles O21: a receive step that completes takes the first byte exactly when the decoder accepts. -/
theorem bytesAreTakenOnlyWhileAccepting : Obligations.BytesAreTakenOnlyWhileAccepting := by
  intro s b more hp
  rw [mem_accepting_iff, mem_holding_iff]
  refine ⟨fun hacc hidx => ?_, execRxByte_of_not_accepting b⟩
  obtain ⟨t, ht⟩ := execRxByte_completes hidx b
  refine ⟨t, ht, ?_⟩
  rw [execRxByte_pending ht, if_pos hacc, hp, List.tail_cons]

/-- The offer that stops the machine: a payload byte with RX_IDX = 15. -/
def Stops (o : Offer) (s : State) : Prop := o = .receive ∧ s.pending ≠ [] ∧ s.rx.state = .pay ∧ s.rx.idx = 15

theorem perform_of_stops {o : Offer} {s : State} (h : Stops o s) : perform o s = .fault .rxIndexOutOfRange := by
  obtain ⟨rfl, hne, hpay, hidx⟩ := h
  obtain ⟨b, more, hp⟩ := List.exists_cons_of_ne_nil hne
  rw [perform_receive hp, execRxByte_of_pay hp hpay]
  exact if_pos hidx

theorem perform_of_not_stops {o : Offer} {s : State} (h : ¬ Stops o s) : ∃ t, perform o s = .next t := by
  cases o with
  | command w =>
    cases hw : decodeCommand w with
    | ok i => rw [perform_legal hw]; exact exec_command_total (isCommand_of_decodeCommand hw) s
    | error e => exact ⟨_, perform_illegal hw s⟩
  | receive =>
    cases hp : s.pending with
    | nil => exact ⟨_, perform_receive_nil hp⟩
    | cons b more =>
      rw [perform_receive hp]
      exact execRxByte_completes (fun hpay hidx => h ⟨rfl, by simp [hp], hpay, hidx⟩) b
  | read a | arrive b | resetInput => exact ⟨_, rfl⟩

/-- A step stops exactly when the oldest offer does, and otherwise gives a next state. -/
theorem step_outcome (s : State) :
    ((∃ o, s.offers.head? = some o ∧ Stops o s) ∧ step s = .fault .rxIndexOutOfRange) ∨
    ((∀ o, s.offers.head? = some o → ¬ Stops o s) ∧ ∃ t, step s = .next t) := by
  cases ho : s.offers with
  | nil => exact .inr ⟨nofun, s, step_nil ho⟩
  | cons o later =>
    rw [step_cons ho]
    by_cases h : Stops o s
    · exact .inl ⟨⟨o, rfl, h⟩, perform_of_stops (s := s.withOffers later) h⟩
    · refine .inr ⟨?_, perform_of_not_stops (s := s.withOffers later) h⟩
      rintro _ ⟨⟩
      exact h

/-- Settles O59: a step stops at that one offer only, which the decoder's invariant rules out. -/
theorem noStepStopsUnderTheInvariant : Obligations.NoStepStopsUnderTheInvariant := by
  refine ⟨fun s ⟨hrx, _⟩ => step_total hrx, fun s e => ⟨fun hstep => ?_, ?_⟩, fun s r hstep => ?_⟩
  · obtain ⟨⟨_, ho, rfl, hstops⟩, hfault⟩ | ⟨-, t, hnext⟩ := step_outcome s
    · cases hfault.symm.trans hstep
      exact ⟨rfl, ho, hstops⟩
    · cases hnext.symm.trans hstep
  · rintro ⟨rfl, ho, hstops⟩
    obtain ⟨-, hfault⟩ | ⟨hnot, -⟩ := step_outcome s
    · exact hfault
    · exact absurd ⟨rfl, hstops⟩ (hnot _ ho)
  · obtain ⟨-, hfault⟩ | ⟨-, t, hnext⟩ := step_outcome s
    · cases hfault.symm.trans hstep
    · cases hnext.symm.trans hstep

/-! ### RX_RELEASE (R147) -/

theorem decodeCommand_rxRelease_imm (imm : Byte) :
    decodeCommand (commandWord 0x20 imm) = withoutOperand imm .rxRelease := by
  simp [decodeCommand, commandWord]

/-- R79: RX_RELEASE has one word. -/
theorem decodeCommand_eq_rxRelease {w : CommandWord} (h : decodeCommand w = .ok .rxRelease) : w = 0x2000 := by
  obtain ⟨-, hw⟩ := decodeCommand_eq_ok.1 h
  cases hw
  rfl

theorem execRxRelease_of_held {s : State} (h : s.rx.state = .ready ∨ s.rx.state = .ckerr) :
    execRxRelease s = .next { s with rx := { s.rx with state := .pre0 }, opst := .ok } := if_pos h

theorem execRxRelease_of_not_held {s : State} (h : ¬ (s.rx.state = .ready ∨ s.rx.state = .ckerr)) :
    execRxRelease s = .next { s with opst := .noFrame } := if_neg h

/-- Settles O22: the IMM decides between the command and an illegal word, RX_STATE between the release and the error. -/
theorem rxReleaseFreesAHeldFrame : Obligations.RxReleaseFreesAHeldFrame := by
  refine ⟨fun imm => perform_withoutOperand (decodeCommand_rxRelease_imm imm), fun s => ?_⟩
  simp only [List.mem_cons, List.not_mem_nil, or_false]
  exact ⟨execRxRelease_of_held, execRxRelease_of_not_held⟩

/-! ### A whole frame, and the next one (R148, R149) -/

theorem performAll_keeps_decoder_inv {os : List Offer} {s t : State} (h : performAll os s = .next t) (hs : s.rx.Inv) :
    t.rx.Inv := by
  induction os generalizing s with
  | nil => cases h; exact hs
  | cons o os ih =>
    obtain ⟨u, hu, ht⟩ := andThen_eq_next.1 h
    exact ih ht (perform_keeps_decoder_inv hu hs)

/-- R143: RX_PRE of a held frame is the marker of its kind. -/
theorem pre_of_held {r : DecoderRegs} (hr : r.Inv) (h : r.state = .ready ∨ r.state = .ckerr) :
    r.pre = r.kind.preamble := by
  obtain ⟨-, -, -, hpre, -⟩ := hr
  exact hpre (.inr (.inr (.inr h)))

/-- R72: the two markers. -/
theorem exists_preamble_eq {p : BitVec 16} (h : p = 0xFFFE ∨ p = 0xFFFD) : ∃ kind : FrameKind, p = kind.preamble :=
  h.elim (fun h => ⟨.direct, h⟩) fun h => ⟨.broadcast, h⟩

theorem preamble_eq_bcast {kind : FrameKind} : kind.preamble = 0xFFFD ↔ kind = .broadcast := by
  cases kind <;> decide

/-- R148, the unrecognized preamble: two receive steps lead to DESYNC. -/
theorem receives_unrecognized {s : State} {q0 q1 : Byte} {more : List Byte} (hpre0 : s.rx.state = .pre0)
    (hp : s.pending = q0 :: q1 :: more) (hdirect : joinBytes q0 q1 ≠ 0xFFFE) (hbcast : joinBytes q0 q1 ≠ 0xFFFD) :
    ∃ t, receives 2 s = .next t ∧ t.rx.state = .desync ∧ t.pending = more := by
  obtain ⟨s₁, h₁, hpre1, hhi, hp₁⟩ : ∃ t, perform .receive s = .next t ∧ t.rx.state = .pre1 ∧
      hiByte t.rx.pre = q0 ∧ t.pending = q1 :: more :=
    ⟨_, (perform_receive hp).trans (execRxByte_of_pre0 hp hpre0), rfl, hiByte_joinBytes q0 _, rfl⟩
  obtain ⟨t, h₂, hdesync, hmore⟩ : ∃ t, perform .receive s₁ = .next t ∧ t.rx.state = .desync ∧ t.pending = more := by
    rw [← hhi] at hdirect hbcast
    rw [perform_receive hp₁, execRxByte_of_pre1 hp₁ hpre1,
      rxPre1_of_unrecognized (s := { s₁ with pending := more }) hdirect hbcast]
    exact ⟨_, rfl, rfl, rfl⟩
  refine ⟨t, ?_, hdesync, hmore⟩
  rw [receives_eq_performAll, List.replicate_succ, performAll, h₁, andThen_next, List.replicate_one, performAll, h₂]
  rfl

/-- Settles O23: a marker is the preamble of its kind, whose frame the receive steps decode; RX_PRE follows from the decoder's
invariant, which PRE0 meets. -/
theorem receiveStepsDecodeAFrame : Obligations.ReceiveStepsDecodeAFrame := by
  intro s q0 q1 h k d more hpre0 hlength hpending
  refine ⟨fun hmarker => ?_, receives_unrecognized hpre0 hpending⟩
  obtain ⟨kind, hkind⟩ := exists_preamble_eq hmarker
  have hq0 : q0 = hiByte kind.preamble := by rw [← hkind]; exact (hiByte_joinBytes q0 q1).symm
  have hq1 : q1 = loByte kind.preamble := by rw [← hkind]; exact (loByte_joinBytes q0 q1).symm
  rw [hq0, hq1] at hpending
  obtain ⟨t, ht, htkind, hhdr, hpayload, hstate, hmore⟩ :=
    receives_wholeFrame hpre0 kind (hlength.trans (headerLength_eq_mod h).symm) k hpending
  have hheld : t.rx.state = .ready ∨ t.rx.state = .ckerr := by rw [hstate]; split <;> simp
  have hinv : t.rx.Inv := performAll_keeps_decoder_inv (receives_eq_performAll _ s ▸ ht)
    (DecoderRegs.inv_of_preamble (.inl hpre0))
  refine ⟨t, ht, hmore, ?_, ?_, hhdr, hpayload, hstate⟩
  · rw [pre_of_held hinv hheld, htkind, hkind]
  · rw [htkind, hkind]
    exact preamble_eq_bcast.symm

/-- Settles O25: the whole frame is taken whatever its check byte, so the released decoder is in PRE0 with the next frame
pending. -/
theorem releaseResynchronizesOnTheNextFrame : Obligations.ReleaseResynchronizesOnTheNextFrame := by
  intro s kind kind' h h' k d d' more hpre0 hlength hlength' hwrong hpending
  rw [List.append_assoc _ (inboundBytes kind' h' d')] at hpending
  obtain ⟨t, ht, -, -, -, hckerr, htpending⟩ := receives_wholeFrame hpre0 kind hlength k hpending
  rw [if_neg hwrong] at hckerr
  obtain ⟨u, hu, hupre0, hopst, hupending⟩ : ∃ u, execRxRelease t = .next u ∧ u.rx.state = .pre0 ∧ u.opst = .ok ∧
      u.pending = t.pending := ⟨_, execRxRelease_of_held (.inr hckerr), rfl, rfl, rfl⟩
  rw [htpending] at hupending
  obtain ⟨v, hv, hvkind, hhdr, hpayload, hready, hmore⟩ :=
    receives_wholeFrame hupre0 kind' hlength' (xorSum (h' :: d')) hupending
  rw [if_pos rfl] at hready
  exact ⟨t, u, v, ht, hckerr, hu, hopst, hupending, hv, hready, hvkind, hhdr, hpayload, hmore⟩

/-! ### What holds the decoder still (R141, R150, R276) -/

/-- Of the commands, only RST and RX_RELEASE of a held frame write the decoder. -/
theorem exec_command_keeps_decoder {i : Instr} {s t : State} (hi : IsCommand i) (h : exec i s = .next t)
    (hrst : i ≠ .rst) (hrelease : i = .rxRelease → ¬ (s.rx.state = .ready ∨ s.rx.state = .ckerr)) : t.rx = s.rx := by
  cases hi with
  | cksClr | cksAdd | cksVerify | txStart | bcd => cases h; rfl
  | txParam b => rw [execTxParam_frame h]
  | txSend => cases h; exact sendFrame_rx _ s
  | rxRelease => cases (execRxRelease_of_not_held (hrelease rfl)).symm.trans h; rfl
  | unpack ctx => cases h; exact unpackHeld_rx _ s
  | rst => exact absurd rfl hrst

/-- While the decoder takes no byte, an offer that is no reset and releases no frame leaves it alone, and the pending bytes stay. -/
theorem perform_keeps_decoder {o : Offer} {s t : State} (h : perform o s = .next t) (hhold : s.rx.state.accepting = false)
    (hresets : o.resets = false) (hrelease : o = .command 0x2000 → s.rx.state = .desync) :
    t.rx = s.rx ∧ ∃ arrived, t.pending = s.pending ++ arrived := by
  constructor
  · obtain ⟨w, i, rfl, hw, hexec⟩ | ⟨b, -, hrx⟩ | ⟨rfl, -⟩ | ⟨hkeep, -⟩ := perform_cases h
    · refine exec_command_keeps_decoder (isCommand_of_decodeCommand hw) hexec ?_ ?_
      · rintro rfl
        rw [decodeCommand_eq_rst hw] at hresets
        cases hresets
      · rintro rfl
        rw [hrelease (by rw [decodeCommand_eq_rxRelease hw])]
        decide
    · cases (execRxByte_of_not_accepting b hhold).symm.trans hrx
      rfl
    · cases hresets
    · exact hkeep
  · obtain hkeep | ⟨b, -, harrive⟩ | ⟨b, -, hacc, -⟩ := perform_pending h
    · exact ⟨[], by rw [hkeep, List.append_nil]⟩
    · exact ⟨[b], harrive⟩
    · exact absurd (hhold.symm.trans hacc) (by decide)

/-- The same of a step, whose offer is the oldest one. -/
theorem step_keeps_decoder {s t : State} (h : step s = .next t) (hhold : s.rx.state.accepting = false)
    (hoffer : ∀ o, s.offers.head? = some o → o.resets = false ∧ (o = .command 0x2000 → s.rx.state = .desync)) :
    t.rx = s.rx ∧ ∃ arrived, t.pending = s.pending ++ arrived := by
  obtain ⟨-, rfl⟩ | ⟨o, later, u, hoffers, hu, rfl⟩ := step_eq_next h
  · exact ⟨rfl, [], (List.append_nil _).symm⟩
  · obtain ⟨hresets, hrelease⟩ := hoffer o (by rw [hoffers]; rfl)
    exact perform_keeps_decoder (t := u) hu hhold hresets hrelease

/-- Settles O26: DESYNC accepts no byte and holds no frame, so of all offers only a reset writes the decoder. -/
theorem desyncIsAbsorbing : Obligations.DesyncIsAbsorbing := by
  intro s hdesync
  refine ⟨fun t hstep hoffer => ?_, fun ctx => ⟨_, rfl, ?_⟩, ⟨_, execRxRelease_of_not_held ?_, rfl⟩, ⟨_, rfl, rfl⟩,
    ⟨_, rfl, rfl⟩⟩
  · rw [Option.all_eq_true] at hoffer
    exact step_keeps_decoder hstep (by rw [hdesync]; rfl) fun o ho =>
      ⟨by simpa using hoffer o ho, fun _ => hdesync⟩
  · rw [unpackHeld_noFrame _ (by rw [hdesync]; decide) (by rw [hdesync]; decide)]
  · rw [hdesync]
    decide

/-- Settles O27: READY and CKERR accept no byte, and RX_RELEASE's word is 0x2000. -/
theorem heldFrameStaysUntilReleased : Obligations.HeldFrameStaysUntilReleased := by
  intro s t hheld hstep hoffer
  have hhold : s.rx.state.accepting = false := by obtain h | h := hheld <;> rw [h] <;> rfl
  rw [Option.all_eq_true] at hoffer
  refine step_keeps_decoder hstep hhold fun o ho => ?_
  obtain ⟨hresets, hrelease⟩ : o.resets = false ∧ o ≠ .command 0x2000 := by simpa using hoffer o ho
  exact ⟨hresets, fun h => absurd h hrelease⟩

/-! ### The frame of the decoder, through the read port -/

/-- Where the read port shows the receive path: at STATUS, RX_PRE, RX_HDR, RX_IDX, RX_XOR, RX_CHK and RX_BUF. -/
theorem regRead_withReceiver (s t : State) {a : Byte} (ha : a ∉ [0x00#8, 0x02, 0x03, 0x04, 0x05, 0x06, 0x07])
    (hbuf : ¬ (0x20 ≤ a.toNat ∧ a.toNat ≤ 0x2E)) : regRead (s.withReceiver t) a = regRead s a := by
  simp only [List.mem_cons, List.not_mem_nil, or_false, not_or] at ha
  obtain ⟨hstatus, hpreHi, hpreLo, hhdr, hidx, hxor, hchk⟩ := ha
  have hcontrol : (controlRows (s.withReceiver t)).lookup a = (controlRows s).lookup a := by
    refine lookup_cons_congr (fun h => absurd h hstatus) (lookup_cons_congr (fun _ => rfl) ?_)
    refine lookup_cons_congr (fun h => absurd h hpreHi) (lookup_cons_congr (fun h => absurd h hpreLo) ?_)
    refine lookup_cons_congr (fun h => absurd h hhdr) (lookup_cons_congr (fun h => absurd h hidx) ?_)
    exact lookup_cons_congr (fun h => absurd h hxor) (lookup_cons_congr (fun h => absurd h hchk) rfl)
  have hrxBuf (buf : Buffer) : (bufferRows 0x20 buf).lookup a = none :=
    lookup_bufferRows_outside (by decide) (by omega) buf
  rw [regRead_eq, regRead_eq, hcontrol, hrxBuf, hrxBuf]
  rfl

/-- R57: only bits 3-0 of STATUS show anything of the decoder. -/
theorem status_withReceiver (s t : State) :
    regRead (s.withReceiver t) 0x00 &&& 0xF0#8 = regRead s 0x00 &&& 0xF0#8 := by
  show statusByte (s.withReceiver t) &&& 0xF0#8 = statusByte s &&& 0xF0#8
  unfold statusByte State.withReceiver
  generalize s.rx.state.bits = st, t.rx.state.bits = st', rxKindFlag s.rx.kind = kind, rxKindFlag t.rx.kind = kind',
    s.tx.state.flag = tx, s.cks.eq = eq
  revert st st' kind kind' tx eq
  decide

/-- RX_BYTE and FRAME_IN write the receive path alone (R140; log entry 7). -/
theorem exec_decoder_writes {s t : State} {b : Byte} {kind : FrameKind} {code : Nibble} {payload : List Byte} {i : Instr}
    (hi : i ∈ [Instr.rxByte b, .frameIn kind code payload]) (h : exec i s = .next t) : t = s.withReceiver t := by
  simp only [List.mem_cons, List.not_mem_nil, or_false] at hi
  obtain rfl | rfl := hi
  · exact execRxByte_frame h
  · exact receiveAll_frame h

/-- `s` with another RX_STATE and OPST: what RX_RELEASE can write. -/
def State.withRxState (st : RxState) (e : OpStatus) (s : State) : State :=
  { s with rx := { s.rx with state := st }, opst := e }

theorem execRxRelease_writes (s : State) : ∃ st e, execRxRelease s = .next (s.withRxState st e) := by
  obtain h | h := execRxRelease_cases s
  · exact ⟨.pre0, .ok, h⟩
  · exact ⟨s.rx.state, .noFrame, h⟩

theorem regRead_withRxState (st : RxState) (e : OpStatus) (s : State) {a : Byte} (ha : a ∉ [0x00#8, 0x01]) :
    regRead (s.withRxState st e) a = regRead s a := by
  simp only [List.mem_cons, List.not_mem_nil, or_false, not_or] at ha
  obtain ⟨hstatus, hopst⟩ := ha
  have hcontrol : (controlRows (s.withRxState st e)).lookup a = (controlRows s).lookup a :=
    lookup_cons_congr (fun h => absurd h hstatus) (lookup_cons_congr (fun h => absurd h hopst) rfl)
  rw [regRead_eq, regRead_eq, hcontrol]
  rfl

/-- R57: RX_STATE is bits 2-0 of STATUS. -/
theorem status_withRxState (st : RxState) (e : OpStatus) (s : State) :
    regRead (s.withRxState st e) 0x00 &&& 0xF8#8 = regRead s 0x00 &&& 0xF8#8 := by
  show statusByte (s.withRxState st e) &&& 0xF8#8 = statusByte s &&& 0xF8#8
  unfold statusByte State.withRxState
  generalize s.rx.state.bits = old, st.bits = new, rxKindFlag s.rx.kind = kind, s.tx.state.flag = tx, s.cks.eq = eq
  revert old new kind tx eq
  decide

/-- Settles O50: the receive steps write the receive path alone, RX_RELEASE only RX_STATE and OPST, and the read port shows them
only at the listed addresses. -/
theorem decoderFrame : Obligations.DecoderFrame := by
  constructor
  · intro s t b kind code payload i hi h
    rw [exec_decoder_writes hi h]
    exact ⟨fun a => regRead_withReceiver s t, status_withReceiver s t, rfl, rfl, rfl⟩
  · intro s
    obtain ⟨st, e, h⟩ := execRxRelease_writes s
    exact ⟨_, h, fun a => regRead_withRxState st e s, status_withRxState st e s, rfl, rfl, rfl, rfl⟩

end Sys2Proof.Machine

/-! ## The statements of 43_unpacker.md: UNPACK's checks and its error, the payload shapes with a command or a programming result,
BCD, and the frame of the unpacker -/

namespace Sys2Proof.Machine

/-! ### The held payload (R24, R26) -/

theorem payload_eq_cons {r : DecoderRegs} (h : headerLength r.hdr ≠ 0) : ∃ rest, r.payload = r.buf[0] :: rest := by
  have hhead : r.buf.toList.head? = some r.buf[0] := by simp [List.head?_eq_getElem?]
  rw [← List.head?_eq_some_iff, DecoderRegs.payload, List.head?_take, if_neg h, hhead]

theorem payload_eq_nil {r : DecoderRegs} (h : headerLength r.hdr = 0) : r.payload = [] := by
  rw [DecoderRegs.payload, h, List.take_zero]

theorem payload_eq_singleton {r : DecoderRegs} (h : headerLength r.hdr = 1) : r.payload = [r.buf[0]] := by
  obtain ⟨rest, hrest⟩ := payload_eq_cons (r := r) (by omega)
  have hlength := payload_length r
  rw [hrest, h, List.length_cons, Nat.add_eq_right, List.length_eq_zero_iff] at hlength
  rw [hrest, hlength]

/-! ### The case rules that give UNKNOWN (R174 to R182) -/

theorem dispatch_eq_none_of_no_rule {code : Nibble} (h : code ∉ [0x0#4, 0x4, 0x6, 0xF]) (cfg : Config)
    (payload : List Byte) (kind : FrameKind) (ctx : Bool) : dispatch cfg code payload kind ctx = none := by
  unfold dispatch
  split
  case h_1 hc | h_2 hc | h_3 hc | h_4 hc =>
    rw [ofNibble_eq_some.1 hc] at h
    exact absurd (by decide) h
  all_goals rfl

theorem dispatch_status (cfg : Config) (payload : List Byte) (kind : FrameKind) (ctx : Bool) :
    dispatch cfg 0x6 payload kind ctx = statusCase cfg kind payload := rfl

theorem dispatch_interface (cfg : Config) (payload : List Byte) (kind : FrameKind) (ctx : Bool) :
    dispatch cfg 0xF payload kind ctx = ifaceCase payload := rfl

theorem ifstatusStatusCase_eq_none {payload : List Byte} : ifstatusStatusCase payload = none ↔ payload.length ≠ 1 := by
  match payload with
  | [] | [_] | _ :: _ :: _ => simp [ifstatusStatusCase]

theorem dispatch_interfaceStatus_eq_none {cfg : Config} {payload : List Byte} {kind : FrameKind} {ctx : Bool} :
    dispatch cfg 0x0#4 payload kind ctx = none ↔ ctx = false ∧ payload.length ≠ 1 := by
  cases ctx with
  | true => exact ⟨nofun, nofun⟩
  | false => exact ifstatusStatusCase_eq_none.trans (and_iff_right rfl).symm

theorem accReportCase_eq_none {cfg : Config} {payload : List Byte} :
    accReportCase cfg payload = none ↔ payload.length ≠ 2 := by
  refine ⟨fun h hlength => ?_, accReportCase_of_length_ne_two cfg⟩
  obtain ⟨address, f, rfl⟩ := List.length_eq_two.1 hlength
  cases h

theorem cvnum_eq_none {sub cvb : Byte} : cvnum sub cvb = none ↔ sub ∉ [0x10#8, 0x14, 0x15, 0x16, 0x17] := by
  simp only [List.mem_cons, List.not_mem_nil, or_false]
  constructor
  · rintro h (rfl | rfl | rfl | rfl | rfl) <;> cases h
  · intro h
    simp only [not_or] at h
    obtain ⟨h10, h14, h15, h16, h17⟩ := h
    exact (if_neg h10).trans ((if_neg h14).trans ((if_neg h15).trans ((if_neg h16).trans (if_neg h17))))

theorem trackStatusCase_eq_none {cfg : Config} {state : Byte} :
    trackStatusCase cfg state = none ↔ state ∉ [cfg.trackStateOff, 0x01#8, cfg.trackStateProg] := by
  refine ⟨fun h hmem => ?_, trackStatusCase_unknown⟩
  obtain ⟨m, hm⟩ := trackStatusCase_isSome hmem
  cases h.symm.trans hm

theorem ifaceCase_payload_eq_none (r : DecoderRegs) :
    ifaceCase r.payload = none ↔ headerLength r.hdr = 0 ∨ r.buf[0] ∉ [0x01#8, 0x02, 0x03] := by
  by_cases hlength : headerLength r.hdr = 0
  · simp [payload_eq_nil hlength, hlength, ifaceCase]
  · obtain ⟨rest, hrest⟩ := payload_eq_cons hlength
    simp [hrest, hlength, ifaceCase]

theorem statusCase_eq_none {cfg : Config} {kind : FrameKind} {payload : List Byte}
    (hdirect : ¬ (kind = .direct ∧ payload.length = 3)) (hbcast : ¬ (kind = .broadcast ∧ payload.length = 1)) :
    statusCase cfg kind payload = none := by
  unfold statusCase
  split
  · exact absurd ⟨rfl, rfl⟩ hdirect
  · exact absurd ⟨rfl, rfl⟩ hbcast
  · rfl

theorem statusCase_direct_eq_none {cfg : Config} {r : DecoderRegs} (h : headerLength r.hdr = 3) :
    statusCase cfg .direct r.payload = none ↔ r.buf[0] ∉ [0x10#8, 0x14, 0x15, 0x16, 0x17] := by
  obtain ⟨rest, hrest⟩ := payload_eq_cons (r := r) (by omega)
  have hlength := payload_length r
  rw [hrest, h, List.length_cons] at hlength
  obtain ⟨cvb, value, rfl⟩ := List.length_eq_two.1 (Nat.succ.inj hlength)
  rw [hrest, ← cvnum_eq_none (cvb := cvb)]
  exact Option.map_eq_none_iff

theorem statusCase_broadcast_eq_none {cfg : Config} {r : DecoderRegs} (h : headerLength r.hdr = 1) :
    statusCase cfg .broadcast r.payload = none ↔ r.buf[0] ∉ [cfg.trackStateOff, 0x01#8, cfg.trackStateProg] := by
  rw [payload_eq_singleton h]
  exact trackStatusCase_eq_none

/-- R175 to R178: a status payload is UNKNOWN when neither row applies, or when its row's first byte is not listed. -/
theorem statusCase_payload_eq_none (cfg : Config) (r : DecoderRegs) :
    statusCase cfg r.kind r.payload = none ↔
      (¬ (r.kind = .direct ∧ headerLength r.hdr = 3) ∧ ¬ (r.kind = .broadcast ∧ headerLength r.hdr = 1)) ∨
      (r.kind = .direct ∧ headerLength r.hdr = 3 ∧ r.buf[0] ∉ [0x10#8, 0x14, 0x15, 0x16, 0x17]) ∨
      (r.kind = .broadcast ∧ headerLength r.hdr = 1 ∧
        r.buf[0] ∉ [cfg.trackStateOff, 0x01#8, cfg.trackStateProg]) := by
  by_cases hdirect : r.kind = .direct ∧ headerLength r.hdr = 3
  · obtain ⟨hkind, hlength⟩ := hdirect
    rw [hkind, statusCase_direct_eq_none hlength]
    simp [hlength]
  by_cases hbcast : r.kind = .broadcast ∧ headerLength r.hdr = 1
  · obtain ⟨hkind, hlength⟩ := hbcast
    rw [hkind, statusCase_broadcast_eq_none hlength]
    simp [hlength]
  · rw [← payload_length] at hdirect hbcast ⊢
    exact iff_of_true (statusCase_eq_none hdirect hbcast) (.inl ⟨hdirect, hbcast⟩)

/-! ### UnknownMessageError (R170, R182) -/

/-- UNPACK of a frame runs the case rule that `dispatch` gives for its code nibble (R172). -/
theorem exec_unpack_of_code {ctx : Bool} {s : State} {code : Nibble} (hcode : hiNibble s.rx.hdr = code) :
    exec (.unpack ctx) s = .next (unpackHeld (dispatch s.cfg code s.rx.payload s.rx.kind ctx) s) := hcode ▸ rfl

/-- UNPACK of a READY frame ends with UnknownMessageError exactly when `dispatch` gives no message. -/
theorem exec_unpack_unknown_iff {ctx : Bool} {s : State} (hready : s.rx.state = .ready) :
    exec (.unpack ctx) s = .next { s with res := .reset, opst := .unknownMessageError } ↔
      dispatch s.cfg (hiNibble s.rx.hdr) s.rx.payload s.rx.kind ctx = none := by
  rw [exec_unpack_of_code rfl]
  cases dispatch s.cfg (hiNibble s.rx.hdr) s.rx.payload s.rx.kind ctx with
  | none => exact iff_of_true (congrArg _ (unpackHeld_unknown hready)) rfl
  | some m =>
    rw [unpackHeld_message m hready]
    refine iff_of_false (fun h => ?_) nofun
    injection h with h
    cases congrArg State.opst h

/-- Settles O31: by the code nibble, whose case rule gives no message exactly in the cases listed for it. -/
theorem unknownMessageIsExactlyTheTablesRest : Obligations.UnknownMessageIsExactlyTheTablesRest := by
  intro ctx s hready
  rw [exec_unpack_unknown_iff hready]
  by_cases hrule : hiNibble s.rx.hdr ∈ [0x0#4, 0x4, 0x6, 0xF]
  · simp only [List.mem_cons, List.not_mem_nil, or_false] at hrule
    obtain hcode | hcode | hcode | hcode := hrule <;> rw [hcode]
    · rw [dispatch_interfaceStatus_eq_none, payload_length]
      simp
    · rw [dispatch_accessoryReport, accReportCase_eq_none, payload_length]
      simp
    · rw [dispatch_status, statusCase_payload_eq_none]
      simp
    · rw [dispatch_interface, ifaceCase_payload_eq_none]
      simp
  · exact iff_of_true (.inl hrule) (dispatch_eq_none_of_no_rule hrule ..)

/-! ### A command result (R173, R174, R179) -/

/-- R173, R179: what a CommandResult OK with a payload writes, field by field. -/
theorem cmdResult_ok_fields {i : Instr} {s : State} {pay : List Byte} (hready : s.rx.state = .ready)
    (hlength : pay.length ≤ 15) (h : exec i s = .next (unpackHeld (some (.cmdResult .ok pay)) s)) :
    ∃ t, exec i s = .next t ∧ t.opst = .ok ∧ t.res.kind = .cmdResult ∧ t.res.stkind = false ∧ t.res.status = 0x00 ∧
      t.res.plen.toNat = pay.length ∧ (∀ j : Fin 15, t.res.pay[j] = pay.getD j.val 0x00) ∧
      t.res.code = s.rx.hdr &&& 0xF0#8 ∧ (t.res.bcst = true ↔ s.rx.kind = .broadcast) ∧
      t = { s with res := t.res, opst := .ok } := by
  rw [unpackHeld_message _ hready] at h
  have hplen : (BitVec.ofNat 4 pay.length).toNat = pay.length := by rw [BitVec.toNat_ofNat]; omega
  exact ⟨_, h, rfl, rfl, rfl, rfl, hplen, payBuffer_getElem pay, rfl, rxKindFlag_eq_true, rfl⟩

theorem payBuffer_singleton (b : Byte) (i : Fin 15) : (payBuffer [b])[i] = if i.val = 0 then b else 0x00 := by
  rw [payBuffer_getElem]
  cases i.val <;> simp

theorem and_0xF0_of_hiNibble_zero {b : Byte} (h : hiNibble b = 0x0) : b &&& 0xF0#8 = 0x00 := by
  revert b; decide

/-- Settles O33: field by field for both contexts; UNPACK of code nibble 0 runs the case rule of its context. -/
theorem interfaceStatusResults : Obligations.InterfaceStatusResults := by
  intro s hready
  refine ⟨fun payload hlength => cmdResult_ok_fields hready hlength rfl, fun status => ?_, fun hcode => ?_⟩
  · have h : exec (.ifstatusStatus status) s = .next (unpackHeld (some (.cmdResult (.raw status) [status])) s) := rfl
    rw [unpackHeld_message _ hready] at h
    exact ⟨_, h, rfl, rfl, rfl, rfl, rfl, payBuffer_singleton status, rfl, rxKindFlag_eq_true, rfl⟩
  · refine ⟨and_0xF0_of_hiNibble_zero hcode, exec_unpack_of_code hcode, fun hlength => ?_, fun hlength => ?_⟩
    · rw [exec_unpack_of_code hcode, payload_eq_singleton hlength]
      rfl
    · rw [exec_unpack_unknown_iff hready, hcode]
      exact dispatch_interfaceStatus_eq_none.2 ⟨rfl, by rwa [payload_length]⟩

/-- Settles O37: the three subcodes give a CommandResult OK with the data; UNPACK of code nibble 0xF runs the case rule. -/
theorem interfaceReplyGivesTheData : Obligations.InterfaceReplyGivesTheData := by
  intro s data hready hlength
  constructor
  · intro i hi
    simp only [List.mem_cons, List.not_mem_nil, or_false] at hi
    obtain rfl | rfl | rfl := hi <;> exact cmdResult_ok_fields hready (by omega) rfl
  · intro ctx hcode
    have hunpack := exec_unpack_of_code (ctx := ctx) hcode
    refine ⟨fun hpayload => ?_, fun hpayload => ?_, fun hpayload => ?_, fun hunknown => ?_⟩
    · rw [hunpack, hpayload]; rfl
    · rw [hunpack, hpayload]; rfl
    · rw [hunpack, hpayload]; rfl
    · rw [exec_unpack_unknown_iff hready, hcode, dispatch_interface, ifaceCase_payload_eq_none]
      exact hunknown

/-! ### Programming results (R175 to R177, R181) -/

/-- An offset of a CV number is added without overflow. -/
theorem setWidth_add_toNat (cvb : Byte) {offset : Nat} (h : offset ≤ 768) :
    (cvb.setWidth 11 + BitVec.ofNat 11 offset).toNat = cvb.toNat + offset := by
  have := cvb.isLt
  rw [BitVec.toNat_add, BitVec.toNat_setWidth, BitVec.toNat_ofNat]
  omega

theorem cvnum_10_toNat (cvb : Byte) : (cvnum 0x10 cvb).map (·.toNat) = some cvb.toNat :=
  congrArg some (BitVec.toNat_setWidth_of_le (by decide))

/-- CV 1024 has the low byte 0x00. -/
theorem cvnum_14_toNat (cvb : Byte) :
    (cvnum 0x14 cvb).map (·.toNat) = some (if cvb.toNat = 0 then 1024 else cvb.toNat) := by
  have hcv : cvnum 0x14 cvb = some (if cvb = 0x00 then 1024 else cvb.setWidth 11) := rfl
  rw [hcv, Option.map_some, apply_ite BitVec.toNat, BitVec.toNat_setWidth_of_le (by decide)]
  simp [← BitVec.toNat_inj]

theorem cvnum_15_toNat (cvb : Byte) : (cvnum 0x15 cvb).map (·.toNat) = some (cvb.toNat + 256) :=
  congrArg some (setWidth_add_toNat cvb (offset := 256) (by decide))

theorem cvnum_16_toNat (cvb : Byte) : (cvnum 0x16 cvb).map (·.toNat) = some (cvb.toNat + 512) :=
  congrArg some (setWidth_add_toNat cvb (offset := 512) (by decide))

theorem cvnum_17_toNat (cvb : Byte) : (cvnum 0x17 cvb).map (·.toNat) = some (cvb.toNat + 768) :=
  congrArg some (setWidth_add_toNat cvb (offset := 768) (by decide))

/-- Settles O34, subcode by subcode. -/
theorem cvNumberAssembly : Obligations.CvNumberAssembly := by
  intro sub cvb
  refine ⟨?_, ?_, ?_, ?_, ?_, cvnum_eq_none.2⟩ <;> rintro rfl
  · exact cvnum_10_toNat cvb
  · exact cvnum_14_toNat cvb
  · exact cvnum_15_toNat cvb
  · exact cvnum_16_toNat cvb
  · exact cvnum_17_toNat cvb

/-- The meaning of a programming-result shape, by the preamble of the held frame. -/
theorem progResult_by_preamble {i : Instr} {s : State} {sub cvb value : Byte} {n : Nat} (hready : s.rx.state = .ready)
    (h : exec i s = .next (unpackHeld (withPreamble .direct (progResultCase sub cvb value) s) s))
    (hcv : (cvnum sub cvb).map (·.toNat) = some n) :
    (s.rx.kind = .direct →
      ∃ t, exec i s = .next t ∧ t.res.cv.toNat = n ∧
        t = { s with
          opst := .ok
          res := { ResultRegs.reset with
            kind := .progResult, code := s.rx.hdr &&& 0xF0#8, cv := t.res.cv, value := value } }) ∧
    (s.rx.kind = .broadcast → exec i s = .next { s with res := .reset, opst := .unknownMessageError }) := by
  obtain ⟨cv, hsome, rfl⟩ := Option.map_eq_some_iff.1 hcv
  constructor <;> intro hkind
  · have hcase : withPreamble .direct (progResultCase sub cvb value) s = some (.progResult cv value) := by
      rw [withPreamble, if_pos hkind, progResultCase, hsome]
      rfl
    rw [hcase, unpackHeld_message _ hready, hkind] at h
    exact ⟨_, h, rfl, rfl⟩
  · have hcase : withPreamble .direct (progResultCase sub cvb value) s = none := by simp [withPreamble, hkind]
    rw [h, hcase, unpackHeld_unknown hready]

/-- Settles O35: the five shapes by their subcode's CV number. -/
theorem programmingResultGivesCvAndValue : Obligations.ProgrammingResultGivesCvAndValue := by
  intro s cvb value hready p hp
  simp only [List.mem_cons, List.not_mem_nil, or_false] at hp
  obtain rfl | rfl | rfl | rfl | rfl := hp
  · exact progResult_by_preamble hready rfl (cvnum_10_toNat cvb)
  · exact progResult_by_preamble hready rfl (cvnum_14_toNat cvb)
  · exact progResult_by_preamble hready rfl (cvnum_15_toNat cvb)
  · exact progResult_by_preamble hready rfl (cvnum_16_toNat cvb)
  · exact progResult_by_preamble hready rfl (cvnum_17_toNat cvb)

/-! ### UNPACK's checks, and what it leaves (R170, R171, R185, R236) -/

/-- R79: UNPACK's word has its context in the IMM. -/
theorem decodeCommand_unpack_imm (imm : Byte) :
    decodeCommand (commandWord 0x21 imm) =
      if imm = 0x00 then .ok (.unpack false) else if imm = 0x01 then .ok (.unpack true) else .error .reservedOperand := by
  simp [decodeCommand, commandWord]

/-- Settles O30: the IMM decides between the two contexts and an illegal word, then RX_STATE between the checks. -/
theorem unpackChecksComeInOrder : Obligations.UnpackChecksComeInOrder := by
  refine ⟨fun imm s => ?_, fun ctx s => ⟨fun hckerr => ?_, fun hckerr hready => ?_⟩⟩
  · have hw : decodeCommand (0x21#8 ++ imm) = _ := decodeCommand_unpack_imm imm
    split_ifs at hw ⊢
    · exact perform_legal hw s
    · exact perform_legal hw s
    · exact perform_illegal hw s
  · exact congrArg _ (unpackHeld_ckerr _ hckerr)
  · exact congrArg _ (unpackHeld_noFrame _ hckerr hready)

/-- `s` with another result and OPST: what UNPACK and the payload shapes can write. -/
def State.withResult (r : ResultRegs) (e : OpStatus) (s : State) : State := { s with res := r, opst := e }

theorem unpackHeld_writes (m : Option Message) (s : State) :
    unpackHeld m s = s.withResult (unpackHeld m s).res (unpackHeld m s).opst := unpackHeld_eq m s

/-- The old result and OPST do not matter. -/
theorem unpackHeld_withResult (m : Option Message) (r : ResultRegs) (e : OpStatus) (s : State) :
    unpackHeld m (s.withResult r e) = unpackHeld m s := by
  cases m <;> rfl

theorem exec_unpack_withResult (ctx : Bool) (r : ResultRegs) (e : OpStatus) (s : State) :
    exec (.unpack ctx) (s.withResult r e) = exec (.unpack ctx) s :=
  congrArg Host.Outcome.next (unpackHeld_withResult _ r e s)

/-- Settles O39: UNPACK writes the result and OPST alone, and reads neither. -/
theorem unpackLeavesTheFrame : Obligations.UnpackLeavesTheFrame := by
  constructor
  · intro ctx s
    have h : exec (.unpack ctx) s = .next (s.withResult _ _) := congrArg _ (unpackHeld_writes _ s)
    exact ⟨_, h, rfl, (exec_unpack_withResult ctx _ _ s).trans h⟩
  · intro s
    obtain h | h := execRxRelease_cases s <;> exact ⟨_, h, rfl⟩

/-! ### BCD (R183, R184) -/

/-- Settles O40: the digits are the quotient and the remainder by 16. -/
theorem bcdSplitsTheByte : Obligations.BcdSplitsTheByte := fun b =>
  ⟨decodeCommand_bcd b, fun _ => ⟨_, rfl, hiNibble_toNat b, loNibble_toNat b, rfl⟩⟩

/-! ### The frame of the unpacker, through the read port -/

/-- Where the read port shows the result: at OPST, the result registers and RES_PAY. -/
theorem regRead_withResult (r : ResultRegs) (e : OpStatus) (s : State) {a : Byte} (hopst : a ≠ 0x01)
    (hres : ¬ (0x10 ≤ a.toNat ∧ a.toNat ≤ 0x19)) (hpay : ¬ (0x40 ≤ a.toNat ∧ a.toNat ≤ 0x4E)) :
    regRead (s.withResult r e) a = regRead s a := by
  have hcontrol : (controlRows (s.withResult r e)).lookup a = (controlRows s).lookup a :=
    lookup_cons_congr (fun _ => rfl) (lookup_cons_congr (fun h => absurd h hopst) rfl)
  have hresult (r : ResultRegs) : (resultRows r).lookup a = none := lookup_resultRows_none r (by omega)
  have hresPay (buf : Buffer) : (bufferRows 0x40 buf).lookup a = none :=
    lookup_bufferRows_outside (by decide) (by omega) buf
  rw [regRead_eq, regRead_eq, hcontrol, hresult, hresult, hresPay, hresPay]
  rfl

/-- Settles O51: UNPACK and the shapes run the shared part with their message, which writes the result and OPST alone. -/
theorem unpackerFrame : Obligations.UnpackerFrame := by
  intro s ctx x y data i hi
  obtain ⟨m, hm⟩ : ∃ m, exec i s = .next (unpackHeld m s) := by
    simp only [List.mem_cons, List.not_mem_nil, or_false] at hi
    obtain rfl | rfl | rfl | rfl | rfl | rfl | rfl | rfl | rfl | rfl | rfl | rfl | rfl := hi <;> exact ⟨_, rfl⟩
  refine ⟨_, hm, fun a hopst hres hpay => ?_, unpackHeld_pending m s, unpackHeld_sent m s, unpackHeld_cfg m s,
    unpackHeld_readLog m s⟩
  rw [unpackHeld_writes]
  exact regRead_withResult _ _ s hopst hres hpay

end Sys2Proof.Machine

/-! ## The statements of 44_system.md: the two resets, and the illegal word -/

namespace Sys2Proof.Machine

/-! ### RST and the reset input (R210, R260, R262) -/

theorem decodeCommand_rst_imm (imm : Byte) : decodeCommand (commandWord 0xF0 imm) = withoutOperand imm .rst := by
  simp [decodeCommand, commandWord]

/-- R260, R262: a reset keeps the streams, the parameters and the model's own lists of the old state, and nothing else. -/
theorem resetBlock_eq (s : State) :
    resetBlock s =
      { State.reset with
        pending := s.pending, sent := s.sent, cfg := s.cfg, readLog := s.readLog, offers := s.offers } := rfl

/-- R210: OPST is already OK when RST completes, since that is its reset value. -/
theorem complete_resetBlock (s : State) : complete (resetBlock s) = resetBlock s := rfl

theorem exec_rst (s : State) : exec .rst s = .next (resetBlock s) :=
  congrArg Host.Outcome.next (complete_resetBlock s)

theorem perform_resetInput (s : State) : perform .resetInput s = .next (resetBlock s) := rfl

/-- Settles O41: the IMM decides between RST and an illegal word, and RST and the reset input are the same reset. -/
theorem resetRestoresEveryRegister : Obligations.ResetRestoresEveryRegister := by
  refine ⟨fun imm => perform_withoutOperand (decodeCommand_rst_imm imm), fun s => ⟨?_, ?_⟩⟩
  · rw [exec_rst, perform_resetInput]
  · rw [exec_rst, resetBlock_eq]

/-! ### The illegal word (R80, R212) -/

/-- Settles O43: a word that is no instruction is refused by the decoder, so the step that takes it only raises the error. -/
theorem illegalWordWritesOnlyOpst : Obligations.IllegalWordWritesOnlyOpst := by
  intro s w later hoffers hillegal
  cases hw : decodeCommand w with
  | ok i => exact absurd hw (hillegal i)
  | error e =>
    have hstep : step s = .next (illegalWord (s.withOffers later)) := by
      rw [step_cons hoffers, perform_illegal hw]
    exact ⟨_, hstep, rfl, rfl⟩

end Sys2Proof.Machine

/-! ## The statements of 60_exceptions.md: each unit is written by its own steps -/

namespace Sys2Proof.Machine

/-! ### What a step that is no reset writes (the table of 10_state.md, "written by"; R238) -/

/-- The offer `o` takes `s` to `t` as a step of one unit: it is one of that unit's own offers, and of the units' registers it
writes that unit's alone (beside OPST, the streams and the model's list of reads); or it is an offer of no unit. -/
inductive UnitStep (o : Offer) (s t : State) : Prop
  | decoder (ho : o = .receive ∨ o = .command 0x2000)
      (hwrites : t = { s with rx := t.rx, pending := t.pending, opst := t.opst })
  | encoder (ho : o.isEncoderCommand = true) (hwrites : t = s.withTransmitter t)
  | checksum (b : Byte) (ho : o = .command 0x0100 ∨ o = .command (0x02#8 ++ b) ∨ o = .command (0x03#8 ++ b))
      (hwrites : t = { s with cks := t.cks, opst := t.opst })
  | bcd (b : Byte) (ho : o = .command (0x30#8 ++ b)) (hwrites : t = { s with bcd := t.bcd, opst := t.opst })
  | result (ho : o = .command 0x2100 ∨ o = .command 0x2101) (hwrites : t = s.withResult t.res t.opst)
  | noUnit (hwrites : t = { s with pending := t.pending, readLog := t.readLog, opst := t.opst })

/-- R79: every legal word but RST's is a word of one unit, and its command writes only there. -/
theorem UnitStep.of_command {w : CommandWord} {i : Instr} {s t : State} (hw : decodeCommand w = .ok i)
    (h : exec i s = .next t) (hrst : w ≠ 0xF000) : UnitStep (.command w) s t := by
  obtain ⟨hi, hword⟩ := decodeCommand_eq_ok.1 hw
  have hencoder (hi : IsEncoderCommand i) : UnitStep (.command w) s t :=
    .encoder (isEncoderCommand_iff.2 ⟨w, i, rfl, hw, hi⟩) (exec_encoderCommand_frame hi h)
  cases hi with
  | txStart | txParam | txSend => exact hencoder (by constructor)
  | cksClr => cases hword; cases h; exact .checksum 0x00 (.inl rfl) rfl
  | cksAdd b => cases hword; cases h; exact .checksum b (.inr (.inl rfl)) rfl
  | cksVerify e => cases hword; cases h; exact .checksum e (.inr (.inr rfl)) rfl
  | bcd b => cases hword; cases h; exact .bcd b rfl rfl
  | rxRelease =>
    cases hword
    obtain e | e := execRxRelease_cases s <;> cases e.symm.trans h <;> exact .decoder (.inr rfl) rfl
  | unpack ctx =>
    cases hword; cases h
    exact .result (by cases ctx; exacts [.inl rfl, .inr rfl]) (unpackHeld_writes _ s)
  | rst => exact absurd (decodeCommand_eq_rst hw) hrst

theorem perform_unitStep {o : Offer} {s t : State} (h : perform o s = .next t) (hresets : o.resets = false) :
    UnitStep o s t := by
  cases o with
  | command w =>
    cases hw : decodeCommand w with
    | ok i =>
      rw [perform_legal hw] at h
      exact .of_command hw h (by rintro rfl; cases hresets)
    | error e => rw [perform_illegal hw] at h; cases h; exact .noUnit rfl
  | receive =>
    cases hp : s.pending with
    | nil => cases (perform_receive_nil hp).symm.trans h; exact .noUnit rfl
    | cons b more =>
      rw [perform_receive hp] at h
      refine .decoder (.inl rfl) ?_
      rw [execRxByte_frame h]
  | read a | arrive b => cases h; exact .noUnit rfl
  | resetInput => cases hresets

/-- Settles O56: the step is a step of one unit (or of none), whose registers are then the only ones that can change. -/
theorem eachUnitIsWrittenByItsOwnSteps : Obligations.EachUnitIsWrittenByItsOwnSteps := by
  intro s t o later hoffers hstep hresets
  rw [step_cons hoffers] at hstep
  cases perform_unitStep hstep hresets with
  | decoder ho hwrites => rw [hwrites]; exact ⟨fun _ => ho, absurd rfl, absurd rfl, absurd rfl, absurd rfl⟩
  | encoder ho hwrites => rw [hwrites]; exact ⟨absurd rfl, fun _ => ho, absurd rfl, absurd rfl, absurd rfl⟩
  | checksum b ho hwrites => rw [hwrites]; exact ⟨absurd rfl, absurd rfl, fun _ => ⟨b, ho⟩, absurd rfl, absurd rfl⟩
  | bcd b ho hwrites => rw [hwrites]; exact ⟨absurd rfl, absurd rfl, absurd rfl, fun _ => ⟨b, ho⟩, absurd rfl⟩
  | result ho hwrites => rw [hwrites]; exact ⟨absurd rfl, absurd rfl, absurd rfl, absurd rfl, fun _ => ho⟩
  | noUnit hwrites => rw [hwrites]; exact ⟨absurd rfl, absurd rfl, absurd rfl, absurd rfl, absurd rfl⟩

end Sys2Proof.Machine

/-! ## The statements of 70_reset_and_hazards.md: the registers after a reset -/

namespace Sys2Proof.Machine

/-- Settles O57: the registers meet the invariant, and no byte has been emitted yet. -/
theorem resetMeetsTheInvariant : Obligations.ResetMeetsTheInvariant := ⟨State.reset_inv, .nil⟩

/-- R55: a map whose rows all show 0x00 reads 0x00 at every address, listed or not. -/
theorem lookup_getD_of_values_zero {rows : List (Byte × Byte)} {n : Nat}
    (hrows : rows.map Prod.snd = List.replicate n 0x00) (a : Byte) : (rows.lookup a).getD 0x00 = 0x00 := by
  cases h : rows.lookup a with
  | none => rfl
  | some v =>
    obtain ⟨before, after, rfl, -⟩ := List.lookup_eq_some_iff.1 h
    have hv : v ∈ List.replicate n 0x00 := hrows ▸ List.mem_map_of_mem (a := (a, v)) (by simp)
    exact List.eq_of_mem_replicate hv

/-- R56, R260: the 69 rows of the read map, each with a register's reset value. -/
theorem readMap_reset_values : (readMap State.reset).map Prod.snd = List.replicate 69 0x00 := by
  have hcontrol : (controlRows State.reset).map Prod.snd = List.replicate 14 0x00 := rfl
  have hresult : (resultRows State.reset.res).map Prod.snd = List.replicate 10 0x00 := rfl
  have hrxBuf : (bufferRows 0x20 State.reset.rx.buf).map Prod.snd = List.replicate 15 0x00 := rfl
  have htxBuf : (bufferRows 0x30 State.reset.tx.buf).map Prod.snd = List.replicate 15 0x00 := rfl
  have hresPay : (bufferRows 0x40 State.reset.res.pay).map Prod.snd = List.replicate 15 0x00 := rfl
  simp only [readMap, List.map_append, hcontrol, hresult, hrxBuf, htxBuf, hresPay, List.replicate_append_replicate]

/-- The map shows registers only, so the streams, parameters and lists that a reset keeps are not seen. -/
theorem readMap_resetBlock (s : State) : readMap (resetBlock s) = readMap State.reset := rfl

theorem regRead_resetBlock (s : State) (a : Byte) : regRead (resetBlock s) a = 0x00 := by
  rw [regRead, readMap_resetBlock]
  exact lookup_getD_of_values_zero readMap_reset_values a

/-- R260: power-on, the reset input and RST are one reset. -/
theorem eq_resetBlock_of_reset {t : State}
    (h : t = State.reset ∨ ∃ s, perform .resetInput s = .next t ∨ exec .rst s = .next t) : ∃ s, t = resetBlock s := by
  obtain rfl | ⟨s, h | h⟩ := h
  · exact ⟨State.reset, rfl⟩
  · rw [perform_resetInput] at h; cases h; exact ⟨s, rfl⟩
  · rw [exec_rst] at h; cases h; exact ⟨s, rfl⟩

/-- Settles O42: after any of the three resets each register holds its reset value, and so each row of the read map shows 0x00. -/
theorem registersAfterReset : Obligations.RegistersAfterReset := by
  intro t ht
  obtain ⟨s, rfl⟩ := eq_resetBlock_of_reset ht
  have hbuffers (i : Fin 15) : (resetBlock s).rx.buf[i] = 0x00 ∧ (resetBlock s).tx.buf[i] = 0x00 ∧
      (resetBlock s).res.pay[i] = 0x00 := ⟨zeroBuffer_getElem i, zeroBuffer_getElem i, zeroBuffer_getElem i⟩
  exact ⟨rfl, rfl, rfl, rfl, rfl, rfl, rfl, hbuffers, rfl, rfl, rfl, rfl, rfl, rfl, rfl, rfl, rfl, rfl,
    regRead_resetBlock s⟩

end Sys2Proof.Machine
